-- ==== Sys2Proof/Word.lean ====
section
/-! DEFINITION. The two widths of the LVM core (R7, R20, R31): the 16-bit word of registers,
addresses and flags, and the byte of memory. `+`, `-` and `*` of `BitVec 16` are the spec's
arithmetic followed by `wrap16` (00_scope.md section 5). -/

namespace Sys2Proof

/-- A register, an address, the flags register or an immediate: 16 bits (`XLEN`, R7). -/
abbrev Word := BitVec 16

/-- One byte of memory or of the instruction stream (R31). -/
abbrev Byte := BitVec 8

end Sys2Proof
end

