-- ==== Sys2Proof/Syntax.lean ====
section
/-! DEFINITION. The instructions of the LVM core as terms: one constructor per row of
spec/opcode_table.json. An operand is what its encoding field names; no bit of an encoding is
dropped, not even the ignored `arith` bit of SHL (R74). -/

namespace Sys2Proof

/-- The eight registers x[0] to x[7] (R20): x[0] is IP, x[6] is BP, x[7] is SP. -/
inductive Reg where
  | ip | r1 | r2 | r3 | r4 | r5 | bp | sp
  deriving DecidableEq, Repr

/-- `rm[5]`: the operand size of a memory-family instruction (R63). -/
inductive Size where
  | byte | word
  deriving DecidableEq, Repr

/-- `rm[7:6]`: the base of an address (R63, R111). Mode 3 carries the immediate word, bytes 2 and 3
of the encoding (R68 format M). -/
inductive Base where
  | none
  | bp
  | sp
  | imm (w : Word)
  deriving DecidableEq, Repr

/-- The addressing-mode byte `rm`, with its immediate word in mode 3 (R63). -/
structure Mem where
  base : Base
  size : Size
  post : Bool
  pre  : Bool
  n    : Reg
  deriving DecidableEq, Repr

/-- The count of a legal shift (R64): the 5-bit field itself (`rc` = 0), or a register (`rc` = 1). -/
inductive Count where
  | imm (k : BitVec 5)
  | reg (r : Reg)
  deriving DecidableEq, Repr

/-- The instruction set (R69): one constructor per row of the opcode table, in its order. -/
inductive Instr where
  /-- RET, which is also the return from interrupt (R170, R171). -/
  | ret
  /-- JCC: condition mask, signed displacement (R172). -/
  | jcc (mask : BitVec 3) (disp : BitVec 5)
  /-- JMP to an absolute target (R173). -/
  | jmp (target : Word)
  /-- CALL of an absolute target (R174). -/
  | call (target : Word)
  /-- LD into data register `s` (R120). -/
  | ld (s : Reg) (m : Mem)
  /-- ST from data register `s` (R121). -/
  | st (s : Reg) (m : Mem)
  /-- LEA into data register `s` (R122). -/
  | lea (s : Reg) (m : Mem)
  /-- ILLEGAL_M, the reserved memory op 3; field `s` is ignored (R123). -/
  | illegalM (s : Reg)
  /-- LDI of a 16-bit immediate (R141). -/
  | ldi (d : Reg) (imm : Word)
  /-- SHL; `arith` is the ignored bit 6 of its control byte (R143, R74). -/
  | shl (d : Reg) (arith : Bool) (c : Count)
  /-- SHR (R144). -/
  | shr (d : Reg) (c : Count)
  /-- SAR (R145). -/
  | sar (d : Reg) (c : Count)
  /-- ILLEGAL_SHIFT: a shift with a register count whose count field exceeds 7 (R146). -/
  | illegalShift (d : Reg) (dir arith : Bool) (cnt : BitVec 5)
  /-- NOT (R147). -/
  | not (d : Reg)
  /-- NEG (R148). -/
  | neg (d : Reg)
  /-- MOV (R149). -/
  | mov (d s : Reg)
  /-- ADD (R150). -/
  | add (d s : Reg)
  /-- AND (R151). -/
  | and (d s : Reg)
  /-- XOR (R152). -/
  | xor (d s : Reg)
  deriving DecidableEq, Repr

end Sys2Proof
end

