-- ==== Sys2Proof/WellFormed.lean ====
section
/-! DEFINITION. The constraints the opcode table puts on operands (its "constraint" column; R69,
R23): `d` and `s` fields never name x[0], and the count field of ILLEGAL_SHIFT exceeds 7. Every
other field value is legal, so every other operand is unconstrained (R63, R65). -/

namespace Sys2Proof

/-- A `d` or `s` field that is not 000: one of x[1] to x[7] (R23, R69). -/
def Reg.nonzero (r : Reg) : Bool := r != .ip

/-- The well-formed instructions: those that some byte sequence encodes. -/
def Instr.wf : Instr → Bool
  | .ret => true
  | .jcc _ _ => true
  | .jmp _ => true
  | .call _ => true
  | .ld s _ => s.nonzero
  | .st s _ => s.nonzero
  | .lea s _ => s.nonzero
  | .illegalM s => s.nonzero
  | .ldi d _ => d.nonzero
  | .shl d _ _ => d.nonzero
  | .shr d _ => d.nonzero
  | .sar d _ => d.nonzero
  | .illegalShift d _ _ cnt => d.nonzero && decide (7 < cnt.toNat)
  | .not d => d.nonzero
  | .neg d => d.nonzero
  | .mov d s => d.nonzero && s.nonzero
  | .add d s => d.nonzero && s.nonzero
  | .and d s => d.nonzero && s.nonzero
  | .xor d s => d.nonzero && s.nonzero

/-- `Instr.wf` as a proposition. -/
abbrev Instr.WellFormed (i : Instr) : Prop := i.wf = true

end Sys2Proof
end

