-- ==== Sys2Proof/Decode.lean ====
section
/-! DEFINITION. From bytes to instructions and back (30_encoding.md, 40_step_dispatch.md R92).
`decode` is total: every four-byte window is an instruction (R93). `decodeBytes` reads a byte list of
any length and rejects by name only a list that ends inside an instruction. `encode` is written from
the patterns of R69. The positions of `d`, `s` and of the shift control byte's fields are the spec's
decisions D1 and D2 (DESIGN CHOICE, log entries 3 and 4). -/

namespace Sys2Proof

/-- The 3-bit number of a register (R20). -/
def Reg.bits : Reg → BitVec 3
  | .ip => 0 | .r1 => 1 | .r2 => 2 | .r3 => 3 | .r4 => 4 | .r5 => 5 | .bp => 6 | .sp => 7

/-- The register a 3-bit field names (R20, R67). -/
def Reg.ofBits (b : BitVec 3) : Reg :=
  match b.toFin with
  | 0 => .ip | 1 => .r1 | 2 => .r2 | 3 => .r3 | 4 => .r4 | 5 => .r5 | 6 => .bp | 7 => .sp

/-- A 2-bit field: the `op` of an opcode byte (R61), or the base mode of an `rm` byte (R63). -/
inductive Op where
  | op0 | op1 | op2 | op3
  deriving DecidableEq, Repr

/-- The two bits of the field. -/
def Op.bits : Op → BitVec 2
  | .op0 => 0 | .op1 => 1 | .op2 => 2 | .op3 => 3

/-- The field its two bits name. -/
def Op.ofBits (b : BitVec 2) : Op :=
  match b.toFin with
  | 0 => .op0 | 1 => .op1 | 2 => .op2 | 3 => .op3

/-- A word from its bytes in the instruction stream, low byte first (R40, R66). -/
def wordOfBytes (lo hi : Byte) : Word := hi ++ lo

/-- Bits 7:0 of a word. -/
def loByte (w : Word) : Byte := w.extractLsb' 0 8

/-- Bits 15:8 of a word. -/
def hiByte (w : Word) : Byte := w.extractLsb' 8 8

/-- Four consecutive bytes of the instruction stream: the longest instruction (R60, R70). -/
structure Window where
  b0 : Byte
  b1 : Byte
  b2 : Byte
  b3 : Byte
  deriving DecidableEq, Repr

/-- The addressing mode of an `rm` byte, with the word after it for mode 3 (R63). -/
def decodeMem (rm : Byte) (imm : Word) : Mem where
  base := match Op.ofBits (rm.extractLsb' 6 2) with
    | .op0 => .none | .op1 => .bp | .op2 => .sp | .op3 => .imm imm
  size := if rm.getLsbD 5 then .word else .byte
  post := rm.getLsbD 4
  pre := rm.getLsbD 3
  n := Reg.ofBits (rm.extractLsb' 0 3)

/-- The count of a shift control byte: the field, or with `rc` = 1 a register, when the field is at
most 7 (R64). -/
def decodeCount (ctrl : Byte) : Option Count :=
  if ctrl.getLsbD 5 then
    if ctrl.extractLsb' 3 2 = 0#2 then some (.reg (Reg.ofBits (ctrl.extractLsb' 0 3))) else none
  else some (.imm (ctrl.extractLsb' 0 5))

/-- A shift of register `d` from its control byte (R142): dir = bit 7, arith = bit 6. -/
def decodeShift (d : Reg) (ctrl : Byte) : Instr :=
  let dir := ctrl.getLsbD 7
  let arith := ctrl.getLsbD 6
  match decodeCount ctrl with
  | none => .illegalShift d dir arith (ctrl.extractLsb' 0 5)
  | some c => if dir then (if arith then .sar d c else .shr d c) else .shl d arith c

/-- The instruction the window's first bytes encode: the priority tree of R62 and R92. -/
def decode (w : Window) : Instr :=
  let op := Op.ofBits (w.b0.extractLsb' 6 2)
  let d := Reg.ofBits (w.b0.extractLsb' 3 3)
  let s := Reg.ofBits (w.b0.extractLsb' 0 3)
  if d = .ip then
    if s = .ip then
      match op with
      | .op0 => .ret
      | .op1 => .jcc (w.b1.extractLsb' 5 3) (w.b1.extractLsb' 0 5)
      | .op2 => .jmp (wordOfBytes w.b1 w.b2)
      | .op3 => .call (wordOfBytes w.b1 w.b2)
    else
      match op with
      | .op0 => .ld s (decodeMem w.b1 (wordOfBytes w.b2 w.b3))
      | .op1 => .st s (decodeMem w.b1 (wordOfBytes w.b2 w.b3))
      | .op2 => .lea s (decodeMem w.b1 (wordOfBytes w.b2 w.b3))
      | .op3 => .illegalM s
  else if s = .ip then
    match op with
    | .op0 => .ldi d (wordOfBytes w.b1 w.b2)
    | .op1 => decodeShift d w.b1
    | .op2 => .not d
    | .op3 => .neg d
  else
    match op with
    | .op0 => .mov d s
    | .op1 => .add d s
    | .op2 => .and d s
    | .op3 => .xor d s

/-- The length of an addressing mode's bytes: `rm`, and the immediate word in mode 3 (R70). -/
def Mem.length (m : Mem) : Nat :=
  match m.base with
  | .none => 1
  | .bp => 1
  | .sp => 1
  | .imm _ => 3

/-- The length of an instruction in bytes (R70); for the ILLEGAL rows, the bytes consumed before the
fault. -/
def Instr.length : Instr → Nat
  | .ret => 1
  | .jcc _ _ => 2
  | .jmp _ => 3
  | .call _ => 3
  | .ld _ m => 1 + m.length
  | .st _ m => 1 + m.length
  | .lea _ m => 1 + m.length
  | .illegalM _ => 1
  | .ldi _ _ => 3
  | .shl _ _ _ => 2
  | .shr _ _ => 2
  | .sar _ _ => 2
  | .illegalShift _ _ _ _ => 2
  | .not _ => 1
  | .neg _ => 1
  | .mov _ _ => 1
  | .add _ _ => 1
  | .and _ _ => 1
  | .xor _ _ => 1

/-- Why a byte list is no instruction: it ends before the instruction does. The machine itself never
sees this: its memory has a byte at every address (R31). -/
inductive DecodeError where
  | truncated
  deriving DecidableEq, Repr

/-- The first four bytes of a list; a byte the list does not have stands as 0. -/
def Window.ofBytes (bs : List Byte) : Window :=
  ⟨bs.getD 0 0, bs.getD 1 0, bs.getD 2 0, bs.getD 3 0⟩

/-- Reads one instruction from the front of a byte list and gives the bytes after it. -/
def decodeBytes (bs : List Byte) : Except DecodeError (Instr × List Byte) :=
  let i := decode (Window.ofBytes bs)
  if i.length ≤ bs.length then .ok (i, bs.drop i.length) else .error .truncated

/-! ### The encoder (R69) -/

/-- The opcode byte: `op` in bits 7:6, `d` in bits 5:3, `s` in bits 2:0 (R61). -/
def opcodeByte (op : Op) (d s : Reg) : Byte := op.bits ++ d.bits ++ s.bits

/-- A word as its two bytes in the instruction stream, low byte first (R66). -/
def encodeWord (w : Word) : List Byte := [loByte w, hiByte w]

/-- The base field and the immediate bytes of an addressing mode (R63). -/
def encodeBase : Base → Op × List Byte
  | .none => (.op0, [])
  | .bp => (.op1, [])
  | .sp => (.op2, [])
  | .imm w => (.op3, encodeWord w)

/-- The size bit of an addressing mode (R63). -/
def encodeSize : Size → BitVec 1
  | .byte => 0
  | .word => 1

/-- The `rm` byte `bbzpennn` (R63, R69). -/
def rmByte (m : Mem) : Byte :=
  (encodeBase m.base).1.bits ++ encodeSize m.size ++ BitVec.ofBool m.post ++ BitVec.ofBool m.pre ++ m.n.bits

/-- The bytes of an addressing mode: `rm`, then the immediate word in mode 3 (R68 format M). -/
def encodeMem (m : Mem) : List Byte := rmByte m :: (encodeBase m.base).2

/-- The low six bits `rccccc` of a shift control byte (R64). -/
def encodeCount : Count → BitVec 6
  | .imm k => 0#1 ++ k
  | .reg r => 1#1 ++ 0#2 ++ r.bits

/-- The shift control byte: dir, arith, then the count (R64). -/
def shiftByte (dir arith : Bool) (c : BitVec 6) : Byte := BitVec.ofBool dir ++ BitVec.ofBool arith ++ c

/-- The bytes of a well-formed instruction, lowest address first (R69). -/
def encode : Instr → List Byte
  | .ret => [opcodeByte .op0 .ip .ip]
  | .jcc mask disp => [opcodeByte .op1 .ip .ip, mask ++ disp]
  | .jmp t => opcodeByte .op2 .ip .ip :: encodeWord t
  | .call t => opcodeByte .op3 .ip .ip :: encodeWord t
  | .ld s m => opcodeByte .op0 .ip s :: encodeMem m
  | .st s m => opcodeByte .op1 .ip s :: encodeMem m
  | .lea s m => opcodeByte .op2 .ip s :: encodeMem m
  | .illegalM s => [opcodeByte .op3 .ip s]
  | .ldi d w => opcodeByte .op0 d .ip :: encodeWord w
  | .shl d a c => [opcodeByte .op1 d .ip, shiftByte false a (encodeCount c)]
  | .shr d c => [opcodeByte .op1 d .ip, shiftByte true false (encodeCount c)]
  | .sar d c => [opcodeByte .op1 d .ip, shiftByte true true (encodeCount c)]
  | .illegalShift d dir a cnt => [opcodeByte .op1 d .ip, shiftByte dir a (1#1 ++ cnt)]
  | .not d => [opcodeByte .op2 d .ip]
  | .neg d => [opcodeByte .op3 d .ip]
  | .mov d s => [opcodeByte .op0 d s]
  | .add d s => [opcodeByte .op1 d s]
  | .and d s => [opcodeByte .op2 d s]
  | .xor d s => [opcodeByte .op3 d s]

/-! ### The opcode table's numbering -/

/-- Byte `j` of an instruction whose `k` first bytes are the number `w`, numbered as
spec/opcode_table.json numbers them: a 16-bit row has the opcode byte in bits 15:8 and the control
byte in bits 7:0 (INDEX.md), so the first byte is the most significant; the bytes after the `k` are 0
(DEDUCED, log entry 19). -/
def tableByte (k w j : Nat) : Byte :=
  if j < k then BitVec.ofNat 8 (w >>> (8 * (k - 1 - j))) else 0

/-- The window of a table word of `nbits` bits. -/
def Window.ofTable (nbits w : Nat) : Window :=
  let k := nbits / 8
  ⟨tableByte k w 0, tableByte k w 1, tableByte k w 2, tableByte k w 3⟩

/-- The instruction the decoder reads from a table word; none for a width that is not one to four
whole bytes. -/
def decodeTableWord (nbits w : Nat) : Option Instr :=
  if nbits % 8 = 0 ∧ 8 ≤ nbits ∧ nbits ≤ 32 then some (decode (Window.ofTable nbits w)) else none

end Sys2Proof
end

