-- ==== Sys2Proof/Config.lean ====
section
/-! DEFINITION. The parameters of the block, at the values this hardware takes (R7; the source's
literals, decision D18, log entry 17). The spec leaves no value open (93_implementation_defined.md
settles U1 to U10), so there is no free value here. -/

namespace Sys2Proof.Config

/-- `MEM_SIZE`: bytes of memory, addresses 0x0000 to 0xFFFF (R7, R31). -/
abbrev memSize : Nat := 65536

/-- `SP_DEFAULT`: what the SP-zero rule puts into SP (R7, R22). -/
abbrev spDefault : Word := 0xFFF0#16

/-- `IVT_BASE`: the address of interrupt vector 0 (R7, R51). -/
abbrev ivtBase : Word := 0xFFF0#16

/-- `IVT_ENTRIES`: the number of interrupt vectors, so of interrupt numbers (R7; decision D10, log
entry 12). -/
abbrev ivtEntries : Nat := 8

/-- What every byte of memory holds at reset, so what an address with no entry reads as (R33, R230). -/
abbrev resetByte : Byte := 0x00#8

end Sys2Proof.Config
end

