-- ==== Sys2Proof/Machine/State.lean ====
section
/-! DEFINITION. The state of the LVM core as plain data: the triple (x[0..7], F, M) of 10_state.md,
and beside it the one input of a step, the interrupt numbers the caller presents (R8, R10). -/

namespace Sys2Proof.Machine

/-- An interrupt number 0 to 7: the 3-bit port `irq_num` (R7, R8). DESIGN CHOICE (the spec's decision
D10, log entry 12): a larger number cannot be presented. -/
abbrev IrqNum := Fin Config.ivtEntries

/-- The register file, each register 16 bits (R20). -/
structure Regs where
  ip : Word
  r1 : Word
  r2 : Word
  r3 : Word
  r4 : Word
  r5 : Word
  bp : Word
  sp : Word
  deriving DecidableEq, Repr

/-- The 65536 bytes of memory (R31), as the list of the bytes that differ from their reset value,
addresses strictly rising. -/
abbrev Memory := List Host.Cell

/-- The machine's state (R20, R26, R31, R33). -/
structure State where
  regs : Regs
  /-- F: POSITIVE bit 0, ZERO bit 1, NEGATIVE bit 2, INTERRUPT_ENABLE bit 3, bits 15:4 stored and
  never interpreted (R26, R27). -/
  flags : Word
  mem : Memory
  /-- The caller's input, not the core's state: what is presented at the coming step (`irq_valid`,
  `irq_num`), then at the step after it, and so on; past the end of the list, nothing (R8, R10, R206;
  DESIGN CHOICE, log entry 1). -/
  irqs : List (Option IrqNum)
  deriving DecidableEq, Repr

/-- The two faults of the spec (R200 to R204). Each carries the state the step leaves, with every write made
before the `raise` (R97, R202), so that a caller may step on from it; the run itself ends (decision
D14, log entry 2). -/
inductive Fault where
  /-- ILLEGAL. Raised by `execIllegalM` (R123) and `execIllegalShift` (R146) only. Safe: the spec
  ends the run of a claim here (D14); unsafe only in the IP it records (log entry 8). -/
  | illegal (left : State)
  /-- UNALIGNED. Raised by LD.W and ST.W at an odd address (R120, R121), by RET, CALL and interrupt
  entry with an odd SP (R170, R174, R210). Safe, as above. -/
  | unaligned (left : State)
  deriving DecidableEq, Repr

/-- Refusals. No step of the model answers one: every instruction of the table has its meaning. -/
inductive Refusal where
  /-- An instruction with no meaning yet, by its mnemonic: would be raised by `exec`'s arms only, and
  none does. Safe. -/
  | notModelled (mnemonic : String)
  deriving DecidableEq, Repr

/-- The outcome of a step as the caller gets it (R200). -/
inductive OutcomeCode where
  | cont | illegal | unaligned
  deriving DecidableEq, Repr

/-- The state right after creation: every register, F and every byte of memory zero (R33, R230), and
nothing presented (DESIGN CHOICE, log entry 1). -/
def State.reset : State where
  regs := { ip := 0#16, r1 := 0#16, r2 := 0#16, r3 := 0#16, r4 := 0#16, r5 := 0#16, bp := 0#16, sp := 0#16 }
  flags := 0#16
  mem := []
  irqs := []

end Sys2Proof.Machine
end

