-- ==== Sys2Proof/Machine/Flags.lean ====
section
/-! DEFINITION. The flags register F, read and written by field (R26 to R28, R140). -/

namespace Sys2Proof.Machine

/-- F[0], POSITIVE (R26). -/
def Flags.positive (f : Word) : Bool := f.getLsbD 0

/-- F[1], ZERO (R26). -/
def Flags.zero (f : Word) : Bool := f.getLsbD 1

/-- F[2], NEGATIVE (R26). -/
def Flags.negative (f : Word) : Bool := f.getLsbD 2

/-- F[3], INTERRUPT_ENABLE (R26). -/
def Flags.ie (f : Word) : Bool := f.getLsbD 3

/-- F[2:0], the three result flags together, which JCC tests (R172). -/
def Flags.nzp (f : Word) : BitVec 3 := f.extractLsb' 0 3

/-- The three result flags of a 16-bit result: ZERO first, then NEGATIVE, else POSITIVE (R140). -/
def nzpOf (v : Word) : BitVec 3 :=
  if v = 0#16 then 0b010#3 else if v.msb then 0b100#3 else 0b001#3

/-- `set_nzp` (R140): F[2:0] from the result, F[15:3] kept. Keeping bits 15:4 is the spec's decision
D8 (DESIGN CHOICE, log entry 10). -/
def Flags.setNzp (f v : Word) : Word := f.extractLsb' 3 13 ++ nzpOf v

/-- F with IE clear and every other bit kept (R210). -/
def Flags.clearIe (f : Word) : Word := f &&& 0xFFF7#16

/-- Whether a JCC with this mask is taken: `mask AND F[2:0]` is not zero (R172). -/
def Flags.taken (mask : BitVec 3) (f : Word) : Bool := (mask &&& Flags.nzp f) != 0#3

end Sys2Proof.Machine
end

