-- ==== Sys2Proof/Machine/Ops.lean ====
section
/-! DEFINITION. The named operations the meanings are written over: registers, memory (raw and
aligned, R40 to R46), instruction fetch, the stack, interrupt entry and the return from it
(R170, R209 to R212), the SP-zero rule (R22), and the outcome of a step as the caller reads it. -/

namespace Sys2Proof.Machine

/-! ### Registers (R20) -/

/-- Reads register `r`. -/
def Regs.get (g : Regs) : Reg → Word
  | .ip => g.ip | .r1 => g.r1 | .r2 => g.r2 | .r3 => g.r3
  | .r4 => g.r4 | .r5 => g.r5 | .bp => g.bp | .sp => g.sp

/-- Writes register `r`. -/
def Regs.set (g : Regs) (r : Reg) (v : Word) : Regs :=
  match r with
  | .ip => { g with ip := v } | .r1 => { g with r1 := v } | .r2 => { g with r2 := v }
  | .r3 => { g with r3 := v } | .r4 => { g with r4 := v } | .r5 => { g with r5 := v }
  | .bp => { g with bp := v } | .sp => { g with sp := v }

/-- `x[r]`. -/
def State.get (s : State) (r : Reg) : Word := s.regs.get r

/-- `x[r] <- v`. -/
def State.set (s : State) (r : Reg) (v : Word) : State := { s with regs := s.regs.set r v }

/-- `F <- f`. -/
def State.setFlags (s : State) (f : Word) : State := { s with flags := f }

/-- Replaces memory. -/
def State.setMem (s : State) (m : Memory) : State := { s with mem := m }

/-- Replaces the caller's coming presentations. -/
def State.setIrqs (s : State) (q : List (Option IrqNum)) : State := { s with irqs := q }

/-! ### Memory (R40 to R44) -/

/-- What an address with no entry reads as: the reset value of every byte (R33, R230). -/
def Memory.unlisted : Byte := Config.resetByte

/-- The byte listed for a key, else the reset byte. -/
def Memory.lookup : Memory → Nat → Byte
  | [], _ => Memory.unlisted
  | (k, v) :: m, a => if k = a then v else Memory.lookup m a

/-- Removes every entry of a key. -/
def Memory.remove (m : Memory) (a : Nat) : Memory := m.filter (fun c => c.1 != a)

/-- Puts an entry before the first entry with a larger key. -/
def Memory.place : Memory → Nat → Byte → Memory
  | [], a, v => [(a, v)]
  | (k, w) :: m, a, v => if a < k then (a, v) :: (k, w) :: m else (k, w) :: Memory.place m a v

/-- Gives a key a byte; the value an unlisted address reads as leaves no entry. -/
def Memory.put (m : Memory) (a : Nat) (v : Byte) : Memory :=
  if v = Memory.unlisted then Memory.remove m a else Memory.place (Memory.remove m a) a v

/-- The canonical form: addresses strictly rising, each below `MEM_SIZE`, and no entry equal to what
an unlisted address reads as. -/
def Memory.wf (m : Memory) : Bool :=
  decide (m.Pairwise (fun c d => c.1 < d.1)) &&
    m.all (fun c => decide (c.1 < Config.memSize) && (c.2 != Memory.unlisted))

/-- `MemRead(a, 1)` (R41). -/
def Memory.readByte (m : Memory) (a : Word) : Byte := Memory.lookup m a.toNat

/-- `MemWrite(a, 1, v)` (R41). -/
def Memory.writeByte (m : Memory) (a : Word) (v : Byte) : Memory := Memory.put m a.toNat v

/-- `MemRead(a, 2)`, raw: low byte at `a`, high byte at `a+1`, which wraps (R42). -/
def Memory.readWord (m : Memory) (a : Word) : Word :=
  wordOfBytes (Memory.readByte m a) (Memory.readByte m (a + 1#16))

/-- `MemWrite(a, 2, v)`, raw: the low byte, then the high byte (R43). -/
def Memory.writeWord (m : Memory) (a v : Word) : Memory :=
  Memory.writeByte (Memory.writeByte m a (loByte v)) (a + 1#16) (hiByte v)

/-- The alignment test of every aligned access and of the stack pointer: `address & 1` (R44). -/
def odd (a : Word) : Bool := a.getLsbD 0

/-- `AlignedRead(a)`; none where it raises UNALIGNED (R44). -/
def Memory.alignedRead (m : Memory) (a : Word) : Option Word :=
  if odd a then none else some (Memory.readWord m a)

/-- `AlignedWrite(a, v)`; none where it raises UNALIGNED, with no byte written (R44). -/
def Memory.alignedWrite (m : Memory) (a v : Word) : Option Memory :=
  if odd a then none else some (Memory.writeWord m a v)

/-! ### The instruction stream (R46) -/

/-- Advances IP past `k` consumed bytes (R25, R46). -/
def State.consume (s : State) (k : Word) : State := s.set .ip (s.get .ip + k)

/-- `Fetch8()`: the byte at IP, and IP past it (R46). -/
def State.fetch8 (s : State) : Byte × State := (Memory.readByte s.mem (s.get .ip), s.consume 1#16)

/-- `Fetch16()`: the raw word at IP, and IP past it (R46). -/
def State.fetch16 (s : State) : Word × State := (Memory.readWord s.mem (s.get .ip), s.consume 2#16)

/-- The four bytes at an address and after it, wrapping (R60). -/
def Memory.windowAt (m : Memory) (a : Word) : Window :=
  ⟨Memory.readByte m a, Memory.readByte m (a + 1#16), Memory.readByte m (a + 2#16), Memory.readByte m (a + 3#16)⟩

/-- The four bytes at IP, which the decoder reads. -/
def State.window (s : State) : Window := Memory.windowAt s.mem (s.get .ip)

/-- Stores four bytes at IP and after it. -/
def State.placeWindow (s : State) (w : Window) : State :=
  let a := s.get .ip
  s.setMem (Memory.writeByte (Memory.writeByte (Memory.writeByte (Memory.writeByte s.mem a w.b0)
    (a + 1#16) w.b1) (a + 2#16) w.b2) (a + 3#16) w.b3)

/-! ### The stack (R45, R170, R174, R210) -/

/-- Pushes a word: SP -= 2, then a raw write at the new SP. The caller has checked SP. -/
def State.push (s : State) (v : Word) : State :=
  let sp := s.get .sp - 2#16
  (s.set .sp sp).setMem (Memory.writeWord s.mem sp v)

/-- Pops a word: a raw read at SP, then SP += 2. The caller has checked SP. -/
def State.pop (s : State) : Word × State :=
  (Memory.readWord s.mem (s.get .sp), s.set .sp (s.get .sp + 2#16))

/-! ### The SP-zero rule (R22) -/

/-- If SP reads 0, SP becomes `SP_DEFAULT` (R22, every step: 90_conflicts.md C4). -/
def State.spZeroRule (s : State) : State :=
  if s.get .sp = 0#16 then s.set .sp Config.spDefault else s

/-! ### Interrupts (R209 to R212) -/

/-- The address of vector `k`: `0xFFF0 + 2*k` (R51, R210). -/
def vectorAddr (k : IrqNum) : Word := Config.ivtBase + BitVec.ofNat 16 (2 * k.val)

/-- The interrupt a step takes: the presented number, if IE is set (R209). -/
def State.accepts (s : State) (irq : Option IrqNum) : Option IrqNum :=
  if Flags.ie s.flags then irq else none

/-- Interrupt entry (R210): with SP odd, UNALIGNED and no change at all; else push F, push IP, clear IE,
and go to the vector, which is read after the pushes. The whole 16-bit F is pushed and the
step answers CONTINUE: the spec's decisions D17 and D16 (DESIGN CHOICE, log entries 11 and 16). The
vector's address is even, so the raw read is the aligned one (R204; `Laws.alignedRead_vector`).
R210's corner (d) disagrees with R210's own sequence on the frame of SP = 2; the sequence is followed:
F at 0x0000, IP at 0xFFFE, SP 0xFFFE (DESIGN CHOICE, log entry 25). -/
def State.interruptEntry (k : IrqNum) (s : State) : Host.Outcome State Fault Refusal :=
  if odd (s.get .sp) then .fault (.unaligned s)
  else
    let s1 := s.push s.flags
    let s2 := s1.push (s1.get .ip)
    let s3 := s2.setFlags (Flags.clearIe s2.flags)
    .next (s3.set .ip (Memory.readWord s3.mem (vectorAddr k)))

/-- The return of RET, once SP is known even (R170): pop IP; with IE clear this is the return from an
interrupt, and F is popped too. IE is read once, before any pop. All 16 bits of F are written: the
spec's decision D9 (DESIGN CHOICE, log entry 11). -/
def State.returnFromStack (s : State) : State :=
  let s1 := s.pop.2.set .ip s.pop.1
  if Flags.ie s.flags then s1 else s1.pop.2.setFlags s1.pop.1

/-- The number presented at the coming step, if any (R8, R206). -/
def State.presented (s : State) : Option IrqNum :=
  match s.irqs with
  | [] => none
  | q :: _ => q

/-- The state once the coming step has read its presentation: the core never acknowledges or keeps
it (R10, R206). -/
def State.takeInput (s : State) : State := s.setIrqs s.irqs.tail

/-- The caller presents nothing at the coming step, whatever it was about to present. -/
def State.quietInput (s : State) : State :=
  match s.irqs with
  | [] => s
  | _ :: q => s.setIrqs (none :: q)

/-! ### The outcome of a step (R8, R95, R200) -/

/-- The state a fault leaves (R97, R202). -/
def Fault.left : Fault → State
  | .illegal s => s
  | .unaligned s => s

/-- The outcome the caller gets and the state the step leaves: the pair of R8's
`step : State -> Option (Fin 8) -> Outcome x State`. None for a refusal, which no step answers. -/
def outcomeOf : Host.Outcome State Fault Refusal → Option (OutcomeCode × State)
  | .next s => some (.cont, s)
  | .fault (.illegal s) => some (.illegal, s)
  | .fault (.unaligned s) => some (.unaligned, s)
  | .refused _ => none

/-- The 2-bit outcome code: CONTINUE = 0, ILLEGAL = 1, UNALIGNED = 2 (R7; decision D7, DESIGN CHOICE,
log entry 9). -/
def OutcomeCode.code : OutcomeCode → BitVec 2
  | .cont => 0
  | .illegal => 1
  | .unaligned => 2

end Sys2Proof.Machine
end

