-- ==== Sys2Proof/Machine/Operands.lean ====
section
/-! DEFINITION. The operand forms: the address resolver (41_address_resolver.md), the amount of a
shift (R142) and the displacement of JCC (R67). -/

namespace Sys2Proof.Machine

/-- The operand size in bytes, which is also the step of pre-decrement and post-increment (R67,
R110). -/
def sizeBytes : Size → Word
  | .byte => 1#16
  | .word => 2#16

/-- Step (1) of the resolver: pre-decrement (R112). -/
def preDecrement (m : Mem) (s : State) : State :=
  if m.pre then s.set m.n (s.get m.n - sizeBytes m.size) else s

/-- The mode-3 base word: what `Fetch16()` reads at the current IP. The decoder has read it already
(the bytes after `rm`), but where the pre-decrement has just lowered IP, the word is the one at the
lowered IP (R94, R113; log entry 18). -/
def streamWord (m : Mem) (w : Word) (s : State) : Word :=
  if m.pre && m.n == .ip then Memory.readWord s.mem (s.get .ip) else w

/-- Step (2) of the resolver: the base value (R111, R112). -/
def baseValue (m : Mem) (s : State) : Word :=
  match m.base with
  | .none => 0#16
  | .bp => s.get .bp
  | .sp => s.get .sp
  | .imm w => streamWord m w s

/-- Step (2) of the resolver: mode 3 moves IP past the immediate word (R111, R112). -/
def consumeBase (m : Mem) (s : State) : State :=
  match m.base with
  | .none => s
  | .bp => s
  | .sp => s
  | .imm _ => s.consume 2#16

/-- Step (4) of the resolver: post-increment (R112). -/
def postIncrement (m : Mem) (s : State) : State :=
  if m.post then s.set m.n (s.get m.n + sizeBytes m.size) else s

/-- The address resolver (R112), from the state whose IP is past the `rm` byte: the effective address
and the state with the resolver's writes. It never faults (R116). -/
def resolve (m : Mem) (s : State) : Word × State :=
  let s1 := preDecrement m s
  let s2 := consumeBase m s1
  (baseValue m s1 + s2.get m.n, postIncrement m s2)

/-- The amount of a shift, 0 to 31 (R142): the count field, or the low five bits of the count register as
it stands once both bytes are consumed. -/
def shiftAmount (c : Count) (s : State) : Nat :=
  match c with
  | .imm k => k.toNat
  | .reg r => ((s.get r).extractLsb' 0 5).toNat

/-- The displacement of JCC: `sext_5` (R67). -/
def displacement (disp : BitVec 5) : Word := disp.signExtend 16

/-- A byte load fills the register's upper byte with zeros: the spec's decision D3 (DESIGN CHOICE, log
entry 5). -/
def zeroExtend (b : Byte) : Word := b.setWidth 16

end Sys2Proof.Machine
end

