-- ==== Sys2Proof/Machine/Alu.lean ====
section
/-! DEFINITION. The ALU, data-movement and shift families (43_alu.md). A meaning starts at the state
whose IP is the address of the instruction, and consumes the instruction's bytes itself. -/

namespace Sys2Proof.Machine

/-- The end of every ALU instruction: the result into `d`, and `set_nzp` of it (R140). -/
def State.setResult (s : State) (d : Reg) (v : Word) : State :=
  (s.set d v).setFlags (Flags.setNzp s.flags v)

/-- LDI (R141). -/
def execLdi (d : Reg) (imm : Word) (s : State) : Host.Outcome State Fault Refusal :=
  .next ((s.consume 3#16).setResult d imm)

/-- SHL by 0 to 31 places, zeros shifting in (R143); 16 or more gives 0: the spec's decision D11
(DESIGN CHOICE, log entry 13). -/
def shiftLeft (v : Word) (k : Nat) : Word := v <<< k

/-- SHR by 0 to 31 places, zeros shifting in (R144; D11 as above). -/
def shiftRight (v : Word) (k : Nat) : Word := v >>> k

/-- SAR by 0 to 31 places, copies of bit 15 shifting in (R145; D11 as above; PRESUMED as general
knowledge G1, log entry 14). -/
def shiftArith (v : Word) (k : Nat) : Word := v.sshiftRight k

/-- A shift of register `d` (R142): both bytes are consumed, then the amount and the register are
read. -/
def shiftBy (f : Word → Nat → Word) (d : Reg) (c : Count) (s : State) : State :=
  let s1 := s.consume 2#16
  s1.setResult d (f (s1.get d) (shiftAmount c s1))

/-- SHL (R143); the `arith` bit is ignored (R74). -/
def execShl (d : Reg) (_arith : Bool) (c : Count) (s : State) : Host.Outcome State Fault Refusal :=
  .next (shiftBy shiftLeft d c s)

/-- SHR (R144). -/
def execShr (d : Reg) (c : Count) (s : State) : Host.Outcome State Fault Refusal :=
  .next (shiftBy shiftRight d c s)

/-- SAR (R145). -/
def execSar (d : Reg) (c : Count) (s : State) : Host.Outcome State Fault Refusal :=
  .next (shiftBy shiftArith d c s)

/-- A shift whose register count exceeds 7 (R146): ILLEGAL, two bytes consumed. -/
def execIllegalShift (_d : Reg) (_dir _arith : Bool) (_cnt : BitVec 5) (s : State) :
    Host.Outcome State Fault Refusal :=
  .fault (.illegal (s.consume 2#16))

/-- NOT (R147). -/
def execNot (d : Reg) (s : State) : Host.Outcome State Fault Refusal :=
  .next ((s.consume 1#16).setResult d (s.get d ^^^ 0xFFFF#16))

/-- NEG (R148). -/
def execNeg (d : Reg) (s : State) : Host.Outcome State Fault Refusal :=
  .next ((s.consume 1#16).setResult d (0#16 - s.get d))

/-- MOV (R149). -/
def execMov (d r : Reg) (s : State) : Host.Outcome State Fault Refusal :=
  .next ((s.consume 1#16).setResult d (s.get r))

/-- ADD (R150). -/
def execAdd (d r : Reg) (s : State) : Host.Outcome State Fault Refusal :=
  .next ((s.consume 1#16).setResult d (s.get d + s.get r))

/-- AND (R151). -/
def execAnd (d r : Reg) (s : State) : Host.Outcome State Fault Refusal :=
  .next ((s.consume 1#16).setResult d (s.get d &&& s.get r))

/-- XOR (R152). -/
def execXor (d r : Reg) (s : State) : Host.Outcome State Fault Refusal :=
  .next ((s.consume 1#16).setResult d (s.get d ^^^ s.get r))

end Sys2Proof.Machine
end

