-- ==== Sys2Proof/Machine/ControlFlow.lean ====
section
/-! DEFINITION. The control-flow family (44_control_flow.md): RET (RTI), JCC, JMP, CALL. A meaning
starts at the state whose IP is the address of the instruction, and consumes the instruction's bytes
itself. Where SP is odd the bytes stay consumed: the spec's decision D6 (DESIGN CHOICE, log entry 8). -/

namespace Sys2Proof.Machine

/-- RET: one instruction, its return-from-interrupt form chosen by IE at execution (R170, R171). -/
def execRet (s : State) : Host.Outcome State Fault Refusal :=
  let s1 := s.consume 1#16
  if odd (s1.get .sp) then .fault (.unaligned s1) else .next s1.returnFromStack

/-- JCC (R172): relative to the IP after both bytes. -/
def execJcc (mask : BitVec 3) (disp : BitVec 5) (s : State) : Host.Outcome State Fault Refusal :=
  let s1 := s.consume 2#16
  .next (if Flags.taken mask s1.flags then s1.set .ip (s1.get .ip + displacement disp) else s1)

/-- JMP (R173). -/
def execJmp (target : Word) (s : State) : Host.Outcome State Fault Refusal :=
  .next ((s.consume 3#16).set .ip target)

/-- CALL (R174): SP is checked after the target is fetched and before anything is pushed. -/
def execCall (target : Word) (s : State) : Host.Outcome State Fault Refusal :=
  let s1 := s.consume 3#16
  if odd (s1.get .sp) then .fault (.unaligned s1)
  else .next ((s1.push (s1.get .ip)).set .ip target)

end Sys2Proof.Machine
end

