-- ==== Sys2Proof/Machine/MemoryFamily.lean ====
section
/-! DEFINITION. The memory family (42_memory_family.md): LD, ST, LEA and the reserved op 3. A meaning starts at
the state whose IP is the address of the instruction, and consumes the instruction's bytes itself.
None of them writes the flags: the spec's decision D4 (DESIGN CHOICE, log entry 6). -/

namespace Sys2Proof.Machine

/-- The resolver as LD, ST and LEA call it: after the opcode and `rm` bytes. -/
def resolveOperand (m : Mem) (s : State) : Word × State := resolve m (s.consume 2#16)

/-- LD (R120). A misaligned word load keeps the resolver's writes and the IP advance. -/
def execLd (d : Reg) (m : Mem) (s : State) : Host.Outcome State Fault Refusal :=
  let ea := (resolveOperand m s).1
  let s1 := (resolveOperand m s).2
  match m.size with
  | .byte => .next (s1.set d (zeroExtend (Memory.readByte s1.mem ea)))
  | .word =>
    match Memory.alignedRead s1.mem ea with
    | some v => .next (s1.set d v)
    | none => .fault (.unaligned s1)

/-- ST (R121). The data register is read after the resolver: the spec's decision D5 (DESIGN CHOICE, log
entry 7). -/
def execSt (d : Reg) (m : Mem) (s : State) : Host.Outcome State Fault Refusal :=
  let ea := (resolveOperand m s).1
  let s1 := (resolveOperand m s).2
  match m.size with
  | .byte => .next (s1.setMem (Memory.writeByte s1.mem ea (loByte (s1.get d))))
  | .word =>
    match Memory.alignedWrite s1.mem ea (s1.get d) with
    | some mem => .next (s1.setMem mem)
    | none => .fault (.unaligned s1)

/-- LEA (R122): no memory access and no alignment check. -/
def execLea (d : Reg) (m : Mem) (s : State) : Host.Outcome State Fault Refusal :=
  let ea := (resolveOperand m s).1
  let s1 := (resolveOperand m s).2
  .next (s1.set d ea)

/-- The reserved memory op 3 (R123): ILLEGAL, one byte consumed. -/
def execIllegalM (_d : Reg) (s : State) : Host.Outcome State Fault Refusal :=
  .fault (.illegal (s.consume 1#16))

end Sys2Proof.Machine
end

