-- ==== Sys2Proof/Machine/Dispatch.lean ====
section
/-! DEFINITION. What each instruction does, one arm per row of spec/opcode_table.json. -/

namespace Sys2Proof.Machine

def exec (i : Instr) (s : State) : Host.Outcome State Fault Refusal :=
  match i with
  | .ret => Sys2Proof.Machine.execRet s
  | .jcc mask disp => Sys2Proof.Machine.execJcc mask disp s
  | .jmp target => Sys2Proof.Machine.execJmp target s
  | .call target => Sys2Proof.Machine.execCall target s
  | .ld d m => Sys2Proof.Machine.execLd d m s
  | .st d m => Sys2Proof.Machine.execSt d m s
  | .lea d m => Sys2Proof.Machine.execLea d m s
  | .illegalM d => Sys2Proof.Machine.execIllegalM d s
  | .ldi d imm => Sys2Proof.Machine.execLdi d imm s
  | .shl d arith c => Sys2Proof.Machine.execShl d arith c s
  | .shr d c => Sys2Proof.Machine.execShr d c s
  | .sar d c => Sys2Proof.Machine.execSar d c s
  | .illegalShift d dir arith cnt => Sys2Proof.Machine.execIllegalShift d dir arith cnt s
  | .not d => Sys2Proof.Machine.execNot d s
  | .neg d => Sys2Proof.Machine.execNeg d s
  | .mov d r => Sys2Proof.Machine.execMov d r s
  | .add d r => Sys2Proof.Machine.execAdd d r s
  | .and d r => Sys2Proof.Machine.execAnd d r s
  | .xor d r => Sys2Proof.Machine.execXor d r s

end Sys2Proof.Machine
end

