-- ==== Sys2Proof/Machine/Step.lean ====
section
/-! DEFINITION. The step (40_step_dispatch.md R91): the SP-zero rule, then interrupt entry, or one
instruction decoded at IP and executed. -/

namespace Sys2Proof.Machine

/-- One step with a presented interrupt number or none: the spec's `step(state, pending_interrupt)`
(R8, R91). -/
def stepWith (irq : Option IrqNum) (s : State) : Host.Outcome State Fault Refusal :=
  let s0 := s.spZeroRule
  match s0.accepts irq with
  | some k => s0.interruptEntry k
  | none => exec (decode s0.window) s0

/-- One step, its presentation read from the head of `irqs` (log entry 1). -/
def step (s : State) : Host.Outcome State Fault Refusal :=
  stepWith s.presented s.takeInput

/-- `s` with a table word's instruction stored at IP, and with nothing presented at the coming step
(an interrupt would be taken before the instruction), so that the next step runs it (log entry
20). -/
def State.withFetchWord (s : State) (nbits w : Nat) : State :=
  (s.placeWindow (Window.ofTable nbits w)).quietInput

end Sys2Proof.Machine
end

