-- ==== Sys2Proof/Machine/Reference.lean ====
section
/-! DEFINITION. The step once more, in the spec's own operational order (R91, R92 and the family
rules): bytes are fetched one by one through `Fetch8` and `Fetch16`, and the opcode fields select a
rule with no instruction term between. R94 says that decode-then-execute (`stepWith`) must equal this
in every case; an obligation states it. -/

namespace Sys2Proof.Machine.Reference

/-- Step (2) of the resolver, fetching the mode-3 word where IP stands (R111, R112). -/
def base (mode : Op) (s : State) : Word × State :=
  match mode with
  | .op0 => (0#16, s)
  | .op1 => (s.get .bp, s)
  | .op2 => (s.get .sp, s)
  | .op3 => s.fetch16

/-- `Resolve(rm, size)` (R112). -/
def resolve (rm : Byte) (size : Word) (s : State) : Word × State :=
  let n := Reg.ofBits (rm.extractLsb' 0 3)
  let s1 := if rm.getLsbD 3 then s.set n (s.get n - size) else s
  let (b, s2) := base (Op.ofBits (rm.extractLsb' 6 2)) s1
  let ea := b + s2.get n
  (ea, if rm.getLsbD 4 then s2.set n (s2.get n + size) else s2)

/-- LD, ST and LEA by `op`, and the reserved op 3 (R120 to R123). -/
def memoryFamily (op : Op) (d : Reg) (s : State) : Host.Outcome State Fault Refusal :=
  if op = .op3 then .fault (.illegal s)
  else
    let (rm, s1) := s.fetch8
    let word := rm.getLsbD 5
    let (ea, s2) := resolve rm (if word then 2#16 else 1#16) s1
    match op with
    | .op0 =>
      if word then
        if odd ea then .fault (.unaligned s2) else .next (s2.set d (Memory.readWord s2.mem ea))
      else .next (s2.set d (zeroExtend (Memory.readByte s2.mem ea)))
    | .op1 =>
      if word then
        if odd ea then .fault (.unaligned s2)
        else .next (s2.setMem (Memory.writeWord s2.mem ea (s2.get d)))
      else .next (s2.setMem (Memory.writeByte s2.mem ea (loByte (s2.get d))))
    | _ => .next (s2.set d ea)

/-- SHIFT (R142 to R146). -/
def shift (d : Reg) (s : State) : Host.Outcome State Fault Refusal :=
  let (ctrl, s1) := s.fetch8
  let cnt := (ctrl.extractLsb' 0 5).toNat
  if ctrl.getLsbD 5 && decide (7 < cnt) then .fault (.illegal s1)
  else
    let k := if ctrl.getLsbD 5 then (s1.get (Reg.ofBits (ctrl.extractLsb' 0 3))).toNat % 32 else cnt
    let v := s1.get d
    let r := if ctrl.getLsbD 7 then (if ctrl.getLsbD 6 then shiftArith v k else shiftRight v k)
      else shiftLeft v k
    .next (s1.setResult d r)

/-- RET, JCC, JMP and CALL by `op` (R170 to R174). -/
def controlFlow (op : Op) (s : State) : Host.Outcome State Fault Refusal :=
  match op with
  | .op0 => if odd (s.get .sp) then .fault (.unaligned s) else .next s.returnFromStack
  | .op1 =>
    let (ctrl, s1) := s.fetch8
    .next (if (ctrl.extractLsb' 5 3 &&& Flags.nzp s1.flags) = 0#3 then s1
      else s1.set .ip (s1.get .ip + displacement (ctrl.extractLsb' 0 5)))
  | .op2 =>
    let (t, s1) := s.fetch16
    .next (s1.set .ip t)
  | .op3 =>
    let (t, s1) := s.fetch16
    if odd (s1.get .sp) then .fault (.unaligned s1)
    else .next ((s1.push (s1.get .ip)).set .ip t)

/-- LDI, SHIFT, NOT and NEG by `op` (R141 to R148). -/
def immediateFamily (op : Op) (d : Reg) (s : State) : Host.Outcome State Fault Refusal :=
  match op with
  | .op0 =>
    let (v, s1) := s.fetch16
    .next (s1.setResult d v)
  | .op1 => shift d s
  | .op2 => .next (s.setResult d (s.get d ^^^ 0xFFFF#16))
  | .op3 => .next (s.setResult d (0#16 - s.get d))

/-- MOV, ADD, AND and XOR by `op` (R149 to R152). -/
def registerFamily (op : Op) (d r : Reg) (s : State) : Host.Outcome State Fault Refusal :=
  match op with
  | .op0 => .next (s.setResult d (s.get r))
  | .op1 => .next (s.setResult d (s.get d + s.get r))
  | .op2 => .next (s.setResult d (s.get d &&& s.get r))
  | .op3 => .next (s.setResult d (s.get d ^^^ s.get r))

/-- `Dispatch(op, d, s)` (R92). -/
def dispatch (op : Op) (d r : Reg) (s : State) : Host.Outcome State Fault Refusal :=
  if d = .ip then
    if r = .ip then controlFlow op s else memoryFamily op r s
  else if r = .ip then immediateFamily op d s
  else registerFamily op d r s

/-- `step(irq)` (R91). -/
def step (irq : Option IrqNum) (s : State) : Host.Outcome State Fault Refusal :=
  let s0 := s.spZeroRule
  match irq, Flags.ie s0.flags with
  | some k, true => s0.interruptEntry k
  | _, _ =>
    let (b, s1) := s0.fetch8
    dispatch (Op.ofBits (b.extractLsb' 6 2)) (Reg.ofBits (b.extractLsb' 3 3)) (Reg.ofBits (b.extractLsb' 0 3)) s1

end Sys2Proof.Machine.Reference
end

