-- ==== Sys2Proof/Safety.lean ====
section
/-! DEFINITION. The terms the claims use: what an instruction leaves unchanged, the invariant every
step keeps, and a run that meets no fault (decision D14: ILLEGAL and UNALIGNED end a run). -/

namespace Sys2Proof.Safety

open Sys2Proof.Machine

/-- Every register outside the list holds in `t` what it holds in `s`. -/
def SameRegsBut (rs : List Reg) (s t : State) : Prop := ∀ r, r ∉ rs → t.get r = s.get r

/-- Every byte of memory outside the listed addresses reads in `t` as it does in `s`. -/
def SameMemoryBut (as : List Word) (s t : State) : Prop :=
  ∀ a, a ∉ as → Memory.readByte t.mem a = Memory.readByte s.mem a

/-- Every byte of memory reads in `t` as it does in `s`. -/
def SameMemory (s t : State) : Prop := ∀ a, Memory.readByte t.mem a = Memory.readByte s.mem a

/-- The invariant of the model: memory is in its canonical form. -/
def MemoryCanonical (s : State) : Prop := Memory.wf s.mem = true

/-- The state takes `n` steps and meets no fault and no refusal. -/
def RunsTo (n : Nat) (s t : State) : Prop := Host.Core.run core n s = .next t

/-- A stack pointer that RET, CALL and interrupt entry accept (R47). -/
def StackAligned (s : State) : Prop := (s.get .sp).toNat % 2 = 0

/-- What the resolver's pre-decrement and post-increment add to IP where the index register is IP
(R96, R113). -/
def ipAdjust : Instr → Word
  | .ld _ m | .st _ m | .lea _ m =>
    let size := match m.size with | .byte => 1#16 | .word => 2#16
    if m.n = .ip then (if m.post then size else 0#16) - (if m.pre then size else 0#16) else 0#16
  | _ => 0#16

/-- The result flags that fit a result, by its signed value: ZERO, NEGATIVE or POSITIVE and no other
of the three (R28, R140). -/
def FlagsFit (f v : Word) : Prop :=
  (Flags.zero f = true ↔ v.toInt = 0) ∧ (Flags.negative f = true ↔ v.toInt < 0) ∧
    (Flags.positive f = true ↔ 0 < v.toInt)

/-- What an ALU instruction of length `len` answers (43_alu.md): a next state in which `d` holds `v`,
the result flags fit `v`, F[15:3] is kept, and nothing else but IP has changed. -/
def AluResult (o : Host.Outcome State Fault Refusal) (s : State) (d : Reg) (v len : Word) : Prop :=
  ∃ t, o = .next t ∧ t.get d = v ∧ FlagsFit t.flags v ∧ t.flags >>> 3 = s.flags >>> 3 ∧
    t.get .ip = s.get .ip + len ∧ SameRegsBut [d, .ip] s t ∧ SameMemory s t ∧ t.irqs = s.irqs

/-- The amount of a shift as the spec reads it (R142): the count field, or the count register modulo
32, IP being read past both bytes of the shift. -/
def amountOf (c : Count) (s : State) : Nat :=
  match c with
  | .imm k => k.toNat
  | .reg .ip => (s.get .ip + 2#16).toNat % 32
  | .reg r => (s.get r).toNat % 32

end Sys2Proof.Safety
end

