-- ==== Sys2Proof/Certificates/Slice0/Obligations.lean ====
section
/-! DEFINITION. The statements for the provers. Where a statement rests on a choice the spec marks as
its own decision (D<n> of 92_eei_decisions.md) or on a convention of this model, its docstring names
the decision and the log entry. -/

open Sys2Proof Sys2Proof.Machine Sys2Proof.Safety

/-! ### Reset and the step -/

/-- R230: after creation every register, F and every byte of memory is zero; so IP = 0, interrupts
are disabled, and P = Z = N = 0. -/
def Obligations.ResetStateIsZero : Prop :=
  (∀ r, State.reset.get r = 0#16) ∧ State.reset.flags = 0#16 ∧
  (∀ a, Memory.readByte State.reset.mem a = 0#8) ∧
  Flags.ie State.reset.flags = false ∧ Flags.positive State.reset.flags = false ∧
  Flags.zero State.reset.flags = false ∧ Flags.negative State.reset.flags = false

/-- R22: with SP = 0 every step is the step from the state whose SP is 0xFFF0 and which is otherwise
the same, whatever the step then answers; with SP not 0 the step goes straight to the interrupt check
and then to fetch and dispatch. -/
def Obligations.SpZeroRuleRunsFirst : Prop :=
  ∀ (irq : Option IrqNum) (s : State),
    (s.get .sp = 0#16 →
      stepWith irq s = stepWith irq { s with regs := { s.regs with sp := 0xFFF0#16 } }) ∧
    (s.get .sp ≠ 0#16 →
      stepWith irq s =
        match irq with
        | some k =>
          if s.flags.getLsbD 3 then s.interruptEntry k
          else exec (decode (Memory.windowAt s.mem (s.get .ip))) s
        | none => exec (decode (Memory.windowAt s.mem (s.get .ip))) s)

/-- A step runs the instruction the bytes at IP decode to (R91), when no interrupt is presented or IE
is clear; where one is presented and IE is set, it runs that interrupt's entry and no instruction.
Around both stand the SP-zero rule and the reading of the caller's input (the model's form of it, log
entry 1). -/
def Obligations.StepRunsDecodedInstruction : Prop :=
  ∀ (s : State) (i : Instr),
    decode (Memory.windowAt s.mem (s.get .ip)) = i → i.WellFormed →
    let s0 := if s.get .sp = 0#16 then s.takeInput.set .sp 0xFFF0#16 else s.takeInput
    ((s.presented = none ∨ s.flags.getLsbD 3 = false) → step s = exec i s0) ∧
    (∀ k, s.presented = some k → s.flags.getLsbD 3 = true → step s = s0.interruptEntry k)

/-- R207: with IE = 0 a step presented a number is the step presented none, whatever the number; and
the step presented none is ordinary dispatch, after the SP-zero rule. -/
def Obligations.PresentedNumberIgnoredWhenDisabled : Prop :=
  ∀ s : State,
    (∀ k : IrqNum, s.flags.getLsbD 3 = false → stepWith (some k) s = stepWith none s) ∧
    stepWith none s = exec (decode (Memory.windowAt s.mem (s.get .ip)))
      (if s.get .sp = 0#16 then s.set .sp 0xFFF0#16 else s)

/-- Every step answers CONTINUE, ILLEGAL or UNALIGNED, with the state it leaves (R95, R200); the
model refuses nothing. The codes are decision D7 (log entry 9). -/
def Obligations.EveryStepHasOneOutcome : Prop :=
  ∀ (irq : Option IrqNum) (s : State),
    (∃ c t, outcomeOf (stepWith irq s) = some (c, t) ∧ c.code ≠ 3#2) ∧
    ∀ r, stepWith irq s ≠ .refused r

/-- A step reads one presentation of the caller's and keeps the rest, whatever it answers: the core
latches and acknowledges nothing (R10, R206). The list is the model's form of the input (log
entry 1). -/
def Obligations.StepReadsOnePresentation : Prop :=
  ∀ (s t : State) (c : OutcomeCode), outcomeOf (step s) = some (c, t) → t.irqs = s.irqs.tail

/-- R94: decode-then-execute equals the operational order of R91 and R92, which fetches byte by byte,
for every state and every presentation: also where a pre-decrement of IP moves the fetch of the
immediate word. -/
def Obligations.StepEqualsOperationalOrder : Prop :=
  ∀ (irq : Option IrqNum) (s : State), stepWith irq s = Reference.step irq s

/-- Reset memory meets the invariant. -/
def Obligations.ResetMemoryIsCanonical : Prop := MemoryCanonical State.reset

/-- From every state whose memory is in canonical form, a step leaves it so, whatever it answers. -/
def Obligations.EveryStepKeepsMemoryCanonical : Prop :=
  ∀ (s t : State) (c : OutcomeCode), MemoryCanonical s → outcomeOf (step s) = some (c, t) → MemoryCanonical t

/-- R233: a machine whose memory is all zero executes RET at every step, in its return-from-interrupt
form; it never halts and SP goes round 0xFFF4, 0xFFF8, 0xFFFC, 0. -/
def Obligations.ZeroedMemoryNeverHalts : Prop :=
  ∀ n : Nat, ∃ t, RunsTo n State.reset t ∧ t.get .ip = 0#16 ∧ t.flags = 0#16 ∧
    (∀ a, Memory.readByte t.mem a = 0#8) ∧ decode t.window = .ret ∧
    t.get .sp = BitVec.ofNat 16 (0xFFF0 + 4 * ((n + 3) % 4 + 1))

/-! ### Faults -/

/-- The two illegal rows stop, always, with the bytes read before the fault consumed and nothing else
changed, F among it (R123, R146, R201), and first bytes 0xC1 to 0xC7, and a shift with `rc` = 1 and
a count field above 7, decode to them. The IP left is decision D6, the bytes decisions D1 and D2 (log
entries 8, 3 and 4). -/
def Obligations.IllegalEncodingsStop : Prop :=
  (∀ (r : Reg) (s : State),
    exec (.illegalM r) s = .fault (.illegal (s.set .ip (s.get .ip + 1#16)))) ∧
  (∀ (d : Reg) (dir arith : Bool) (cnt : BitVec 5) (s : State),
    exec (.illegalShift d dir arith cnt) s = .fault (.illegal (s.set .ip (s.get .ip + 2#16)))) ∧
  (∀ w : Window, 0xC1 ≤ w.b0.toNat → w.b0.toNat ≤ 0xC7 → ∃ r, decode w = .illegalM r) ∧
  (∀ w : Window, w.b0.toNat / 64 = 1 → w.b0.toNat / 8 % 8 ≠ 0 → w.b0.toNat % 8 = 0 →
    w.b1.getLsbD 5 = true → 7 < w.b1.toNat % 32 →
    ∃ d dir arith cnt, decode w = .illegalShift d dir arith cnt)

/-- A step that takes no interrupt answers ILLEGAL exactly on the two illegal encodings, as numbers of
the bytes at IP (R73, R201); the bytes rest on decisions D1 and D2 (log entries 3 and 4). -/
def Obligations.StepIsIllegalExactlyOnTwoEncodings : Prop :=
  ∀ s : State,
    (∃ l, stepWith none s = .fault (.illegal l)) ↔
      (let b := (Memory.readByte s.mem (s.get .ip)).toNat
       let ctrl := (Memory.readByte s.mem (s.get .ip + 1#16)).toNat
       (0xC1 ≤ b ∧ b ≤ 0xC7) ∨
         (0x48 ≤ b ∧ b ≤ 0x78 ∧ b % 8 = 0 ∧ ctrl / 32 % 2 = 1 ∧ 7 < ctrl % 32))

/-- UNALIGNED has exactly these causes among the instructions, with these states left (R204); the IP
left is decision D6 (log entry 8). -/
def Obligations.UnalignedHasTheseCauses : Prop :=
  ∀ (i : Instr) (s l : State),
    exec i s = .fault (.unaligned l) ↔
      (i = .ret ∧ (s.get .sp).toNat % 2 = 1 ∧ l = s.set .ip (s.get .ip + 1#16)) ∨
      (∃ t, i = .call t ∧ (s.get .sp).toNat % 2 = 1 ∧ l = s.set .ip (s.get .ip + 3#16)) ∨
      (∃ d m, (i = .ld d m ∨ i = .st d m) ∧ m.size = .word ∧
        (resolveOperand m s).1.toNat % 2 = 1 ∧ l = (resolveOperand m s).2)

/-- A fault changes no byte of memory and no bit of F, and no register but IP, SP (by the SP-zero
rule) and the index register of a misaligned load or store (R202, R204). -/
def Obligations.FaultLeavesMemoryAndFlags : Prop :=
  ∀ (irq : Option IrqNum) (s : State) (f : Fault),
    stepWith irq s = .fault f →
    SameMemory s f.left ∧ f.left.flags = s.flags ∧
    ∃ n, SameRegsBut [.ip, .sp, n] s f.left ∧
      (n ≠ .ip → n ≠ .sp → ∃ d m, m.n = n ∧
        (decode (Memory.windowAt s.mem (s.get .ip)) = .ld d m ∨
          decode (Memory.windowAt s.mem (s.get .ip)) = .st d m))

/-- At one odd effective address the byte forms complete and the word forms end in UNALIGNED with the
transfer not done (R124): no byte of memory is written, and every register is as the resolver left it,
the data register of a load among them. That the resolver's writes are kept is R116 and
90_conflicts.md C5 (log entry 23); the IP left is decision D6 (log entry 8). -/
def Obligations.OddAddressByteVersusWord : Prop :=
  ∀ (d : Reg) (m : Mem) (s : State), (resolveOperand m s).1.toNat % 2 = 1 →
    (m.size = .byte →
      (∃ t, exec (.ld d m) s = .next t) ∧ (∃ t, exec (.st d m) s = .next t)) ∧
    (m.size = .word →
      (∃ l, exec (.ld d m) s = .fault (.unaligned l) ∧ SameMemory s l ∧
        ∀ r, l.get r = (resolveOperand m s).2.get r) ∧
      (∃ l, exec (.st d m) s = .fault (.unaligned l) ∧ SameMemory s l ∧
        ∀ r, l.get r = (resolveOperand m s).2.get r))

/-! ### Memory primitives -/

/-- R41: at any integer address, taken modulo 65536, a byte write sets that one byte to the low eight
bits of the value and no other byte, and a byte read gives the byte there. -/
def Obligations.ByteWriteSetsOneByte : Prop :=
  ∀ (m : Memory) (a b : Int) (v : Word),
    (Memory.readByte (Memory.writeByte m (BitVec.ofInt 16 a) (loByte v)) (BitVec.ofInt 16 b)).toNat =
      if b % 65536 = a % 65536 then v.toNat % 256
      else (Memory.readByte m (BitVec.ofInt 16 b)).toNat

/-- R42: a raw word read has its low byte at `a` and its high byte at `a+1`, which wraps. -/
def Obligations.RawWordReadIsLittleEndian : Prop :=
  ∀ (m : Memory) (a : Word),
    (Memory.readWord m a).toNat =
      (Memory.readByte m a).toNat +
        256 * (Memory.readByte m (BitVec.ofNat 16 ((a.toNat + 1) % 65536))).toNat

/-- R43: a raw word write puts the low byte at `a`, the high byte at `a+1`, which wraps, and changes
no other byte. -/
def Obligations.RawWordWriteIsLittleEndian : Prop :=
  ∀ (m : Memory) (a v b : Word),
    (Memory.readByte (Memory.writeWord m a v) b).toNat =
      if b = a then v.toNat % 256
      else if b.toNat = (a.toNat + 1) % 65536 then v.toNat / 256
      else (Memory.readByte m b).toNat

/-! ### The address resolver -/

/-- The resolver with an index register other than IP (R112, R114, R115): the effective address, and
every register afterwards. A base that is the index register is read after the pre-decrement. -/
def Obligations.ResolverWithOrdinaryIndex : Prop :=
  ∀ (m : Mem) (s : State), m.n ≠ .ip →
    let size := match m.size with | .byte => 1#16 | .word => 2#16
    let dec := if m.pre then size else 0#16
    let inc := if m.post then size else 0#16
    let base := match m.base with
      | .none => 0#16
      | .bp => s.get .bp - (if m.n = .bp then dec else 0#16)
      | .sp => s.get .sp - (if m.n = .sp then dec else 0#16)
      | .imm w => w
    let stream := match m.base with | .imm _ => 2#16 | _ => 0#16
    (resolve m s).1 = base + (s.get m.n - dec) ∧
    (resolve m s).2.get m.n = s.get m.n - dec + inc ∧
    (resolve m s).2.get .ip = s.get .ip + stream ∧
    SameRegsBut [m.n, .ip] s (resolve m s).2 ∧
    (resolve m s).2.flags = s.flags ∧ SameMemory s (resolve m s).2 ∧ (resolve m s).2.irqs = s.irqs

/-- The resolver with index register IP (R112, R113), from the IP after the `rm` byte: IP is read and
written like any other register, and in mode 3 a pre-decrement moves the fetch of the base word to
the lowered IP. -/
def Obligations.ResolverWithIndexIp : Prop :=
  ∀ (m : Mem) (s : State), m.n = .ip →
    let size := match m.size with | .byte => 1#16 | .word => 2#16
    let low := s.get .ip - (if m.pre then size else 0#16)
    let inc := if m.post then size else 0#16
    let base := match m.base with
      | .none => 0#16
      | .bp => s.get .bp
      | .sp => s.get .sp
      | .imm w => if m.pre then Memory.readWord s.mem low else w
    let stream := match m.base with | .imm _ => 2#16 | _ => 0#16
    (resolve m s).1 = base + (low + stream) ∧
    (resolve m s).2.get .ip = low + stream + inc ∧
    SameRegsBut [.ip] s (resolve m s).2 ∧
    (resolve m s).2.flags = s.flags ∧ SameMemory s (resolve m s).2 ∧ (resolve m s).2.irqs = s.irqs

/-! ### The memory family -/

/-- LD (R120): the byte zero-extended (decision D3, log entry 5) or the aligned word goes to the data
register last, so it replaces an index register that is the data register; no flag is written
(decision D4, log entry 6). A misaligned word load keeps the resolver's writes only (R116, log entry
23) and leaves IP past the instruction's bytes (decision D6, log entry 8). -/
def Obligations.LoadResult : Prop :=
  ∀ (d : Reg) (m : Mem) (s : State), d ≠ .ip →
    let ea := (resolveOperand m s).1
    let r := (resolveOperand m s).2
    (m.size = .byte → ∃ t, exec (.ld d m) s = .next t ∧
      (t.get d).toNat = (Memory.readByte s.mem ea).toNat ∧
      SameRegsBut [d] r t ∧ SameRegsBut [d, m.n, .ip] s t ∧
      t.flags = s.flags ∧ SameMemory s t ∧ t.irqs = s.irqs) ∧
    (m.size = .word → ea.toNat % 2 = 0 → ∃ t, exec (.ld d m) s = .next t ∧
      t.get d = Memory.readWord s.mem ea ∧
      SameRegsBut [d] r t ∧ SameRegsBut [d, m.n, .ip] s t ∧
      t.flags = s.flags ∧ SameMemory s t ∧ t.irqs = s.irqs) ∧
    (m.size = .word → ea.toNat % 2 = 1 → exec (.ld d m) s = .fault (.unaligned r))

/-- ST (R121): the data register as the resolver left it (decision D5, log entry 7) goes to the
effective address: its low byte (decision D3, log entry 5), or the aligned word; no other byte of
memory changes and no flag is written (decision D4, log entry 6). A misaligned word store keeps the
resolver's writes only (R116, log entry 23) and leaves IP past the instruction's bytes (decision D6,
log entry 8). -/
def Obligations.StoreResult : Prop :=
  ∀ (d : Reg) (m : Mem) (s : State),
    let ea := (resolveOperand m s).1
    let r := (resolveOperand m s).2
    (m.size = .byte → ∃ t, exec (.st d m) s = .next t ∧
      (Memory.readByte t.mem ea).toNat = (r.get d).toNat % 256 ∧ SameMemoryBut [ea] s t ∧
      SameRegsBut [] r t ∧ SameRegsBut [m.n, .ip] s t ∧ t.flags = s.flags ∧ t.irqs = s.irqs) ∧
    (m.size = .word → ea.toNat % 2 = 0 → ∃ t, exec (.st d m) s = .next t ∧
      (Memory.readByte t.mem ea).toNat = (r.get d).toNat % 256 ∧
      (Memory.readByte t.mem (ea + 1#16)).toNat = (r.get d).toNat / 256 ∧
      SameMemoryBut [ea, ea + 1#16] s t ∧
      SameRegsBut [] r t ∧ SameRegsBut [m.n, .ip] s t ∧ t.flags = s.flags ∧ t.irqs = s.irqs) ∧
    (m.size = .word → ea.toNat % 2 = 1 → exec (.st d m) s = .fault (.unaligned r))

/-- LEA (R122): the effective address, odd or even, goes to the data register last; nothing is read
or written in memory and no flag is written (decision D4, log entry 6). -/
def Obligations.LoadEffectiveAddressResult : Prop :=
  ∀ (d : Reg) (m : Mem) (s : State), d ≠ .ip →
    ∃ t, exec (.lea d m) s = .next t ∧ t.get d = (resolveOperand m s).1 ∧
      SameRegsBut [d] (resolveOperand m s).2 t ∧ SameRegsBut [d, m.n, .ip] s t ∧
      t.flags = s.flags ∧ SameMemory s t ∧ t.irqs = s.irqs

/-- A fetch at an address a store has just written sees the stored byte, with nothing between (R56).
The byte is the low byte of the data register as the resolver left it: decision D5 (log entry 7), and
for a byte store decision D3 (log entry 5). -/
def Obligations.FetchSeesStoredByte : Prop :=
  ∀ (d : Reg) (m : Mem) (s t : State), exec (.st d m) s = .next t →
    (Memory.windowAt t.mem (resolveOperand m s).1).b0.toNat = ((resolveOperand m s).2.get d).toNat % 256

/-! ### The ALU -/

/-- `set_nzp` (R28, R140): exactly the flag that fits the signed value of the result is set, IE is
preserved; that bits 15:4 are kept as well is decision D8 (log entry 10). -/
def Obligations.SetNzpSetsExactlyOneFlag : Prop :=
  ∀ f v : Word, FlagsFit (Flags.setNzp f v) v ∧ Flags.ie (Flags.setNzp f v) = Flags.ie f ∧
    Flags.setNzp f v >>> 4 = f >>> 4

/-- LDI (R141). F[15:4] kept: decision D8 (log entry 10). -/
def Obligations.LoadImmediateResult : Prop :=
  ∀ (d : Reg) (imm : Word) (s : State), d ≠ .ip → AluResult (exec (.ldi d imm) s) s d imm 3#16

/-- MOV (R149), which sets the flags too. F[15:4] kept: decision D8 (log entry 10). -/
def Obligations.MoveResult : Prop :=
  ∀ (d r : Reg) (s : State), d ≠ .ip → r ≠ .ip → AluResult (exec (.mov d r) s) s d (s.get r) 1#16

/-- ADD (R150): the sum modulo 65536. F[15:4] kept: decision D8 (log entry 10). -/
def Obligations.AddResult : Prop :=
  ∀ (d r : Reg) (s : State), d ≠ .ip → r ≠ .ip →
    ∃ v : Word, v.toNat = ((s.get d).toNat + (s.get r).toNat) % 65536 ∧
      AluResult (exec (.add d r) s) s d v 1#16

/-- AND (R151) and XOR (R152), bit by bit. F[15:4] kept: decision D8 (log entry 10). -/
def Obligations.BitwiseResults : Prop :=
  ∀ (d r : Reg) (s : State), d ≠ .ip → r ≠ .ip →
    (∃ v : Word, (∀ j, v.getLsbD j = ((s.get d).getLsbD j && (s.get r).getLsbD j)) ∧
      AluResult (exec (.and d r) s) s d v 1#16) ∧
    (∃ v : Word, (∀ j, v.getLsbD j = ((s.get d).getLsbD j != (s.get r).getLsbD j)) ∧
      AluResult (exec (.xor d r) s) s d v 1#16)

/-- NOT (R147) and NEG (R148): every bit complemented, and 0 minus the value modulo 65536. F[15:4]
kept: decision D8 (log entry 10). -/
def Obligations.ComplementAndNegateResults : Prop :=
  ∀ (d : Reg) (s : State), d ≠ .ip →
    (∃ v : Word, v.toNat = 65535 - (s.get d).toNat ∧ AluResult (exec (.not d) s) s d v 1#16) ∧
    (∃ v : Word, v.toNat = (65536 - (s.get d).toNat) % 65536 ∧ AluResult (exec (.neg d) s) s d v 1#16)

/-- SHL (R142, R143): times 2^k modulo 65536, whatever the ignored `arith` bit (R74); 16 or more
places give 0: decision D11 (log entry 13). F[15:4] kept: decision D8 (log entry 10). -/
def Obligations.ShiftLeftResult : Prop :=
  ∀ (d : Reg) (arith : Bool) (c : Count) (s : State), d ≠ .ip →
    ∃ v : Word, v.toNat = (s.get d).toNat * 2 ^ amountOf c s % 65536 ∧
      AluResult (exec (.shl d arith c) s) s d v 2#16

/-- SHR (R142, R144): the quotient by 2^k; 16 or more places give 0: decision D11 (log entry 13).
F[15:4] kept: decision D8 (log entry 10). -/
def Obligations.ShiftRightResult : Prop :=
  ∀ (d : Reg) (c : Count) (s : State), d ≠ .ip →
    ∃ v : Word, v.toNat = (s.get d).toNat / 2 ^ amountOf c s ∧
      AluResult (exec (.shr d c) s) s d v 2#16

/-- SAR (R142, R145): floor division of the signed value by 2^k (general knowledge G1, log entry 14);
16 or more places give copies of bit 15: decision D11 (log entry 13). F[15:4] kept: decision D8 (log
entry 10). -/
def Obligations.ArithmeticShiftResult : Prop :=
  ∀ (d : Reg) (c : Count) (s : State), d ≠ .ip →
    ∃ v : Word, v.toInt = Int.fdiv (s.get d).toInt (2 ^ amountOf c s) ∧
      AluResult (exec (.sar d c) s) s d v 2#16

/-! ### Control flow -/

/-- R173: JMP and its encoding; an odd target is as good as an even one. -/
def Obligations.JumpResult : Prop :=
  (∀ lo hi b : Byte, decode ⟨0x80#8, lo, hi, b⟩ = .jmp (hi ++ lo)) ∧
  ∀ (target : Word) (s : State), ∃ t, exec (.jmp target) s = .next t ∧ t.get .ip = target ∧
    SameRegsBut [.ip] s t ∧ t.flags = s.flags ∧ SameMemory s t ∧ t.irqs = s.irqs

/-- R172: JCC and its encoding. It is taken when a masked flag is set (mask bit 2 N, bit 1 Z, bit 0
P), and then goes to the IP after both bytes plus the signed displacement, modulo 65536; else the IP
is the one after both bytes. -/
def Obligations.ConditionalJumpResult : Prop :=
  (∀ ctrl b2 b3 : Byte,
    decode ⟨0x40#8, ctrl, b2, b3⟩ = .jcc (ctrl.extractLsb 7 5) (ctrl.extractLsb 4 0)) ∧
  ∀ (mask : BitVec 3) (disp : BitVec 5) (s : State), ∃ t, exec (.jcc mask disp) s = .next t ∧
    t.get .ip =
      (if (mask.getLsbD 2 = true ∧ Flags.negative s.flags = true) ∨
          (mask.getLsbD 1 = true ∧ Flags.zero s.flags = true) ∨
          (mask.getLsbD 0 = true ∧ Flags.positive s.flags = true) then
        BitVec.ofInt 16 ((s.get .ip).toNat + 2 + disp.toInt)
      else BitVec.ofInt 16 ((s.get .ip).toNat + 2)) ∧
    SameRegsBut [.ip] s t ∧ t.flags = s.flags ∧ SameMemory s t ∧ t.irqs = s.irqs

/-- CALL (R174): with SP even the address after the call goes to the word at SP-2, SP becomes SP-2, IP
the target, and no other byte changes; with SP odd, UNALIGNED, only IP moved (decision D6, log
entry 8). -/
def Obligations.CallResult : Prop :=
  ∀ (target : Word) (s : State),
    (StackAligned s → ∃ t, exec (.call target) s = .next t ∧ t.get .ip = target ∧
      t.get .sp = s.get .sp - 2#16 ∧ SameRegsBut [.ip, .sp] s t ∧
      Memory.readWord t.mem (s.get .sp - 2#16) = s.get .ip + 3#16 ∧
      SameMemoryBut [s.get .sp - 2#16, s.get .sp - 1#16] s t ∧ t.flags = s.flags ∧ t.irqs = s.irqs) ∧
    (¬ StackAligned s → exec (.call target) s = .fault (.unaligned (s.set .ip (s.get .ip + 3#16))))

/-- RET (R170): with SP even it pops IP; with IE set that is all and F is kept; with IE clear it pops
all 16 bits of F as well (decision D9, log entry 11). With SP odd, UNALIGNED, only IP moved (decision
D6, log entry 8). -/
def Obligations.ReturnResult : Prop :=
  ∀ s : State,
    (StackAligned s → ∃ t, exec .ret s = .next t ∧
      t.get .ip = Memory.readWord s.mem (s.get .sp) ∧ SameRegsBut [.ip, .sp] s t ∧
      SameMemory s t ∧ t.irqs = s.irqs ∧
      (s.flags.getLsbD 3 = true → t.get .sp = s.get .sp + 2#16 ∧ t.flags = s.flags) ∧
      (s.flags.getLsbD 3 = false → t.get .sp = s.get .sp + 4#16 ∧
        t.flags = Memory.readWord s.mem (s.get .sp + 2#16))) ∧
    (¬ StackAligned s → exec .ret s = .fault (.unaligned (s.set .ip (s.get .ip + 1#16))))

/-- Round trip of CALL and RET (R176, 90_conflicts.md C3, log entry 23). From any state `c` that has kept
SP and the return address of a call, RET goes to the address after the call; with IE set SP is the
caller's and F is kept; with IE clear the word above the return address goes to F, all 16 bits of it
(decision D9, log entry 11), and SP is two higher. It is a claim about `exec`, so about RET once the
SP-zero rule has run: after a CALL with SP = 2, which leaves SP = 0, a stepped RET pops from 0xFFF0
(R174 corner (a)). -/
def Obligations.CallThenReturnRoundTrip : Prop :=
  ∀ (target : Word) (s u c : State), exec (.call target) s = .next u →
    c.get .sp = u.get .sp →
    Memory.readWord c.mem (u.get .sp) = Memory.readWord u.mem (u.get .sp) →
    ∃ t, exec .ret c = .next t ∧ t.get .ip = s.get .ip + 3#16 ∧ SameRegsBut [.ip, .sp] c t ∧
      SameMemory c t ∧
      (Flags.ie c.flags = true → t.get .sp = s.get .sp ∧ t.flags = c.flags) ∧
      (Flags.ie c.flags = false → t.get .sp = s.get .sp + 2#16 ∧
        t.flags = Memory.readWord c.mem (s.get .sp))

/-! ### Interrupts -/

/-- Interrupt entry (R209 to R211) in a step that is presented `k` with IE set and SP even, after the
SP-zero rule: F and then IP go to the stack, IE alone is cleared in F, IP is the vector as it reads after the
pushes, and nothing else changes. The whole of F pushed and the CONTINUE outcome are decisions D17 and
D16 (log entries 11 and 16). Where SP = 2 it follows R210's sequence and not its corner (d) (log entry
25). -/
def Obligations.InterruptEntryResult : Prop :=
  ∀ (k : IrqNum) (s : State), Flags.ie s.flags = true → StackAligned s →
    let sp := if s.get .sp = 0#16 then 0xFFF0#16 else s.get .sp
    ∃ t, stepWith (some k) s = .next t ∧ t.get .sp = sp - 4#16 ∧
      t.get .ip = Memory.readWord t.mem (BitVec.ofNat 16 (0xFFF0 + 2 * k.val)) ∧
      SameRegsBut [.ip, .sp] s t ∧
      (∀ j, t.flags.getLsbD j = (s.flags.getLsbD j && decide (j ≠ 3))) ∧
      Memory.readWord t.mem (sp - 2#16) = s.flags ∧
      Memory.readWord t.mem (sp - 4#16) = s.get .ip ∧
      SameMemoryBut [sp - 4#16, sp - 3#16, sp - 2#16, sp - 1#16] s t ∧ t.irqs = s.irqs

/-- Interrupt entry with SP odd (R204, R210): UNALIGNED, with no state change at all. -/
def Obligations.InterruptEntryWithOddStack : Prop :=
  ∀ (k : IrqNum) (s : State), Flags.ie s.flags = true → ¬ StackAligned s →
    stepWith (some k) s = .fault (.unaligned s)

/-- Return from an interrupt (R212): from any state `h` of the handler that has IE clear and has kept
SP and the frame, RET restores IP, F and SP to what they were before the entry, and keeps the
handler's other registers and memory. F[15:4] restored: decisions D9 and D17 (log entry 11). It is a
claim about `exec`, so about RET once the SP-zero rule has run: an entry with SP = 4 leaves SP = 0, and
a stepped RET then pops from 0xFFF0. Where SP = 2 the frame is that of log entry 25. -/
def Obligations.InterruptThenReturnRestores : Prop :=
  ∀ (k : IrqNum) (s e h : State), s.interruptEntry k = .next e →
    Flags.ie h.flags = false → h.get .sp = e.get .sp →
    (∀ a ∈ [s.get .sp - 4#16, s.get .sp - 3#16, s.get .sp - 2#16, s.get .sp - 1#16],
      Memory.readByte h.mem a = Memory.readByte e.mem a) →
    ∃ t, exec .ret h = .next t ∧ t.get .ip = s.get .ip ∧ t.flags = s.flags ∧
      t.get .sp = s.get .sp ∧ SameRegsBut [.ip, .sp] h t ∧ SameMemory h t

/-- No nested delivery (R213): after an entry no presented number is taken. -/
def Obligations.NoInterruptAfterEntry : Prop :=
  ∀ (k j : IrqNum) (s t : State), s.interruptEntry k = .next t →
    stepWith (some j) t = stepWith none t

/-! ### Rules of the whole machine -/

/-- IE, and with it F[15:3], is written by no instruction but RET (R27, R29), and by RET only where
IE is clear; bits 15:4 rest on decision D8 (log entry 10). -/
def Obligations.UpperFlagsChangeOnlyThroughReturn : Prop :=
  ∀ (i : Instr) (s t : State), exec i s = .next t →
    (i ≠ .ret ∨ Flags.ie s.flags = true) → t.flags >>> 3 = s.flags >>> 3

/-- Memory is written by no instruction but ST and CALL (R48, R50). -/
def Obligations.OnlyStoreAndCallWriteMemory : Prop :=
  ∀ (i : Instr) (s t : State), exec i s = .next t →
    (∀ d m, i ≠ .st d m) → (∀ a, i ≠ .call a) → SameMemory s t

/-- IP after an instruction that completes and is no control flow (R96): the start plus the
instruction's length, and with index register IP also less the pre-decrement and plus the
post-increment. -/
def Obligations.IpAdvancesByLength : Prop :=
  ∀ (i : Instr) (s t : State), i.WellFormed → exec i s = .next t →
    i ≠ .ret → (∀ m d, i ≠ .jcc m d) → (∀ a, i ≠ .jmp a) → (∀ a, i ≠ .call a) →
    t.get .ip = s.get .ip + BitVec.ofNat 16 i.length + ipAdjust i

/-! ### Encoding -/

/-- Decoding the bytes of a well-formed instruction gives it back, and the bytes after it: every
operand at every value its encoding admits (R69). -/
def Obligations.DecodeOfEncode : Prop :=
  ∀ (i : Instr) (rest : List Byte), i.WellFormed → decodeBytes (encode i ++ rest) = .ok (i, rest)

/-- Encoding what any four bytes decode to gives the bytes back, as many as the instruction has: each
byte sequence has one meaning and no bit of it is dropped (R93). -/
def Obligations.EncodeOfDecode : Prop :=
  ∀ w : Window, encode (decode w) = [w.b0, w.b1, w.b2, w.b3].take (decode w).length

/-- Every byte sequence decodes to a well-formed instruction: dispatch is total (R62, R93). -/
def Obligations.DecodedInstructionIsWellFormed : Prop := ∀ w : Window, (decode w).WellFormed

/-- The length is told by the first byte, and for LD, ST and LEA by `rm[7:6]` as well (R70, R71); the
fields' places are decision D1 (log entry 3). -/
def Obligations.LengthFromFirstBytes : Prop :=
  ∀ w : Window,
    let op := w.b0.toNat / 64
    let d := w.b0.toNat / 8 % 8
    let s := w.b0.toNat % 8
    (decode w).length =
      if d = 0 ∧ s = 0 then (if op = 0 then 1 else if op = 1 then 2 else 3)
      else if d = 0 ∧ op = 3 then 1
      else if d = 0 then (if w.b1.toNat / 64 = 3 then 4 else 2)
      else if s = 0 then (if op = 0 then 3 else if op = 1 then 2 else 1)
      else 1

/-- Words written out from the patterns of R69 decode to the instructions they stand for; the places
of `d`, `s` and of the shift fields are decisions D1 and D2 (log entries 3 and 4). -/
def Obligations.WrittenOutWordsDecode : Prop :=
  decode ⟨0b00000000#8, 0#8, 0#8, 0#8⟩ = .ret ∧
  decode ⟨0b01000000#8, 0b01011111#8, 0#8, 0#8⟩ = .jcc 0b010#3 0b11111#5 ∧
  decode ⟨0b11000000#8, 0x00#8, 0x20#8, 0#8⟩ = .call 0x2000#16 ∧
  decode ⟨0b01000011#8, 0b00110100#8, 0#8, 0#8⟩ = .st .r3 ⟨.none, .word, true, false, .r4⟩ ∧
  decode ⟨0b10000011#8, 0b11100010#8, 0x00#8, 0x10#8⟩ = .lea .r3 ⟨.imm 0x1000#16, .word, false, false, .r2⟩ ∧
  decode ⟨0b00001000#8, 0x05#8, 0x00#8, 0#8⟩ = .ldi .r1 5#16 ∧
  decode ⟨0b01001000#8, 0b10100010#8, 0#8, 0#8⟩ = .shr .r1 (.reg .r2) ∧
  decode ⟨0b01010001#8, 0#8, 0#8, 0#8⟩ = .add .r2 .r1
end

