-- ==== Sys2Proof/Laws/Encode.lean ====
section
/-! SUPPORT. Fields of encoded bytes: what the encoder puts into a byte, the decoder takes out of it,
and the other way round. -/

namespace Sys2Proof

@[simp] theorem Reg.ofBits_bits (r : Reg) : Reg.ofBits r.bits = r := by cases r <;> rfl

@[simp] theorem Reg.bits_ofBits (b : BitVec 3) : (Reg.ofBits b).bits = b := by revert b; decide

@[simp] theorem Reg.ofBits_zero : Reg.ofBits 0#3 = .ip := rfl

@[simp] theorem Op.ofBits_bits (o : Op) : Op.ofBits o.bits = o := by cases o <;> rfl

@[simp] theorem Op.bits_ofBits (b : BitVec 2) : (Op.ofBits b).bits = b := by revert b; decide

@[simp] theorem Op.ofBits_0 : Op.ofBits 0#2 = .op0 := rfl
@[simp] theorem Op.ofBits_1 : Op.ofBits 1#2 = .op1 := rfl
@[simp] theorem Op.ofBits_2 : Op.ofBits 2#2 = .op2 := rfl
@[simp] theorem Op.ofBits_3 : Op.ofBits 3#2 = .op3 := rfl

/-- A register is well-formed as a `d` or `s` field exactly when it is not IP. -/
@[simp] theorem Reg.nonzero_iff (r : Reg) : r.nonzero = true ↔ r ≠ .ip := by cases r <;> decide

/-! ### The opcode byte (R61) -/

@[simp] theorem opcodeByte_op (op : Op) (d s : Reg) :
    Op.ofBits ((opcodeByte op d s).extractLsb' 6 2) = op := by
  cases op <;> cases d <;> cases s <;> rfl

@[simp] theorem opcodeByte_d (op : Op) (d s : Reg) :
    Reg.ofBits ((opcodeByte op d s).extractLsb' 3 3) = d := by
  cases op <;> cases d <;> cases s <;> rfl

@[simp] theorem opcodeByte_s (op : Op) (d s : Reg) :
    Reg.ofBits ((opcodeByte op d s).extractLsb' 0 3) = s := by
  cases op <;> cases d <;> cases s <;> rfl

/-- Every byte is the opcode byte of its own fields. -/
theorem opcodeByte_fields (b : Byte) :
    opcodeByte (Op.ofBits (b.extractLsb' 6 2)) (Reg.ofBits (b.extractLsb' 3 3))
      (Reg.ofBits (b.extractLsb' 0 3)) = b := by
  have h (o : BitVec 2) (d s : BitVec 3) :
      opcodeByte (Op.ofBits o) (Reg.ofBits d) (Reg.ofBits s) = o ++ d ++ s := by simp [opcodeByte]
  rw [h]
  revert b; decide +kernel

/-! ### The JCC control byte (R65) -/

theorem jccByte_mask (m : BitVec 3) (d : BitVec 5) : (m ++ d : BitVec (3 + 5)).extractLsb' 5 3 = m := by
  revert m d; decide +kernel

theorem jccByte_disp (m : BitVec 3) (d : BitVec 5) : (m ++ d : BitVec (3 + 5)).extractLsb' 0 5 = d := by
  revert m d; decide +kernel

theorem jccByte_fields (b : Byte) : b.extractLsb' 5 3 ++ b.extractLsb' 0 5 = b := by
  revert b; decide +kernel

/-! ### The `rm` byte (R63) -/

/-- The decoder takes out of an `rm` byte what the encoder put into it. -/
theorem decodeMem_rmByte (m : Mem) (imm : Word) (h : ∀ w, m.base = .imm w → imm = w) :
    decodeMem (rmByte m) imm = m := by
  obtain ⟨base, size, post, pre, n⟩ := m
  have key : ∀ o : Op,
      let b : Byte := o.bits ++ encodeSize size ++ BitVec.ofBool post ++ BitVec.ofBool pre ++ n.bits
      Op.ofBits (b.extractLsb' 6 2) = o ∧ (if b.getLsbD 5 then Size.word else Size.byte) = size ∧
        b.getLsbD 4 = post ∧ b.getLsbD 3 = pre ∧ Reg.ofBits (b.extractLsb' 0 3) = n := by
    intro o
    cases o <;> cases size <;> cases post <;> cases pre <;> cases n <;> decide
  obtain ⟨k1, k2, k3, k4, k5⟩ := key (encodeBase base).1
  have e : rmByte ⟨base, size, post, pre, n⟩ = (encodeBase base).1.bits ++ encodeSize size ++
      BitVec.ofBool post ++ BitVec.ofBool pre ++ n.bits := rfl
  unfold decodeMem
  rw [e]
  simp only [k1, k2, k3, k4, k5]
  cases base with
  | imm w => rw [h w rfl]; rfl
  | _ => rfl

/-! ### The shift control byte (R64) -/

/-- The decoder takes a legal shift's count out of its control byte. -/
theorem decodeCount_shiftByte (dir a : Bool) (c : Count) :
    decodeCount (shiftByte dir a (encodeCount c)) = some c := by
  cases c with
  | imm k =>
    have h : ∀ k : BitVec 5, (shiftByte dir a (0#1 ++ k)).getLsbD 5 = false ∧
        (shiftByte dir a (0#1 ++ k)).extractLsb' 0 5 = k := by
      cases dir <;> cases a <;> decide +kernel
    have e : encodeCount (.imm k) = 0#1 ++ k := rfl
    simp only [decodeCount, e, h k]; simp
  | reg r =>
    have h : ∀ k : BitVec 3, (shiftByte dir a (1#1 ++ 0#2 ++ k)).getLsbD 5 = true ∧
        (shiftByte dir a (1#1 ++ 0#2 ++ k)).extractLsb' 3 2 = 0#2 ∧
        (shiftByte dir a (1#1 ++ 0#2 ++ k)).extractLsb' 0 3 = k := by
      cases dir <;> cases a <;> decide +kernel
    have e : encodeCount (.reg r) = 1#1 ++ 0#2 ++ r.bits := rfl
    simp only [decodeCount, e, h r.bits]; simp

/-- The direction and the `arith` bit of a shift control byte. -/
theorem shiftByte_bits (dir a : Bool) (c : BitVec 6) :
    (shiftByte dir a c).getLsbD 7 = dir ∧ (shiftByte dir a c).getLsbD 6 = a := by
  revert c
  cases dir <;> cases a <;> decide +kernel

/-- The control bytes with no count are those whose register count exceeds 7 (R73). -/
theorem decodeCount_eq_none_iff (ctrl : Byte) :
    decodeCount ctrl = none ↔ ctrl.toNat / 32 % 2 = 1 ∧ 7 < ctrl.toNat % 32 := by
  revert ctrl; decide +kernel

end Sys2Proof
end

