-- ==== Sys2Proof/Laws/State.lean ====
section
/-! SUPPORT. One lemma per field per update of State, and registers read after a write. -/

namespace Sys2Proof.Machine

@[simp] theorem Regs.get_set (g : Regs) (r q : Reg) (v : Word) :
    (g.set r v).get q = if q = r then v else g.get q := by
  cases r <;> cases q <;> rfl

@[simp] theorem Regs.set_set (g : Regs) (r : Reg) (v w : Word) : (g.set r v).set r w = g.set r w := by
  cases r <;> rfl

@[simp] theorem Regs.set_get (g : Regs) (r : Reg) : g.set r (g.get r) = g := by
  cases r <;> rfl

theorem Regs.eq_of_get_eq {g h : Regs} (e : ∀ r, g.get r = h.get r) : g = h := by
  obtain ⟨_, _, _, _, _, _, _, _⟩ := g
  obtain ⟨_, _, _, _, _, _, _, _⟩ := h
  have := e .ip; have := e .r1; have := e .r2; have := e .r3
  have := e .r4; have := e .r5; have := e .bp; have := e .sp
  simp_all [Regs.get]

@[simp] theorem State.get_set (s : State) (r q : Reg) (v : Word) :
    (s.set r v).get q = if q = r then v else s.get q := by
  simp [State.get, State.set]

@[simp] theorem State.flags_set (s : State) (r : Reg) (v : Word) : (s.set r v).flags = s.flags := rfl
@[simp] theorem State.mem_set (s : State) (r : Reg) (v : Word) : (s.set r v).mem = s.mem := rfl
@[simp] theorem State.irqs_set (s : State) (r : Reg) (v : Word) : (s.set r v).irqs = s.irqs := rfl

@[simp] theorem State.get_setFlags (s : State) (f : Word) (r : Reg) : (s.setFlags f).get r = s.get r := rfl
@[simp] theorem State.flags_setFlags (s : State) (f : Word) : (s.setFlags f).flags = f := rfl
@[simp] theorem State.mem_setFlags (s : State) (f : Word) : (s.setFlags f).mem = s.mem := rfl
@[simp] theorem State.irqs_setFlags (s : State) (f : Word) : (s.setFlags f).irqs = s.irqs := rfl

@[simp] theorem State.get_setMem (s : State) (m : Memory) (r : Reg) : (s.setMem m).get r = s.get r := rfl
@[simp] theorem State.flags_setMem (s : State) (m : Memory) : (s.setMem m).flags = s.flags := rfl
@[simp] theorem State.mem_setMem (s : State) (m : Memory) : (s.setMem m).mem = m := rfl
@[simp] theorem State.irqs_setMem (s : State) (m : Memory) : (s.setMem m).irqs = s.irqs := rfl

@[simp] theorem State.get_setIrqs (s : State) (q : List (Option IrqNum)) (r : Reg) :
    (s.setIrqs q).get r = s.get r := rfl
@[simp] theorem State.flags_setIrqs (s : State) (q : List (Option IrqNum)) :
    (s.setIrqs q).flags = s.flags := rfl
@[simp] theorem State.mem_setIrqs (s : State) (q : List (Option IrqNum)) : (s.setIrqs q).mem = s.mem := rfl
@[simp] theorem State.irqs_setIrqs (s : State) (q : List (Option IrqNum)) : (s.setIrqs q).irqs = q := rfl

@[simp] theorem State.get_consume (s : State) (k : Word) (r : Reg) :
    (s.consume k).get r = if r = .ip then s.get .ip + k else s.get r := by
  simp [State.consume]

@[simp] theorem State.flags_consume (s : State) (k : Word) : (s.consume k).flags = s.flags := rfl
@[simp] theorem State.mem_consume (s : State) (k : Word) : (s.consume k).mem = s.mem := rfl
@[simp] theorem State.irqs_consume (s : State) (k : Word) : (s.consume k).irqs = s.irqs := rfl

/-- Two states that agree on every register, the flags, memory and the input are equal. -/
theorem State.eq_of_parts_eq {s t : State} (hr : ∀ r, s.get r = t.get r) (hf : s.flags = t.flags)
    (hm : s.mem = t.mem) (hq : s.irqs = t.irqs) : s = t := by
  obtain ⟨_, _, _, _⟩ := s
  obtain ⟨_, _, _, _⟩ := t
  have := Regs.eq_of_get_eq hr
  simp_all

end Sys2Proof.Machine
end

