-- ==== Sys2Proof/Laws/Memory.lean ====
section
/-! SUPPORT. Memory: read after write, the canonical form kept by every operation, and equal
contents as equal data. -/

namespace Sys2Proof.Machine

/-! ### Read after write -/

theorem Memory.lookup_remove (m : Memory) (a b : Nat) :
    Memory.lookup (Memory.remove m a) b = if b = a then Memory.unlisted else Memory.lookup m b := by
  induction m with
  | nil => simp [Memory.remove, Memory.lookup]
  | cons c m ih =>
    obtain ⟨k, v⟩ := c
    simp only [Memory.remove] at ih ⊢
    by_cases hk : k = a
    · subst hk
      by_cases hb : b = k <;> simp_all [Memory.lookup, eq_comm]
    · by_cases hb : k = b
      · subst hb; simp [Memory.lookup, hk]
      · simp_all [Memory.lookup]

theorem Memory.lookup_place (m : Memory) (a b : Nat) (v : Byte) (hm : ∀ c ∈ m, c.1 ≠ a) :
    Memory.lookup (Memory.place m a v) b = if b = a then v else Memory.lookup m b := by
  induction m with
  | nil => simp [Memory.place, Memory.lookup, eq_comm]
  | cons c m ih =>
    obtain ⟨k, w⟩ := c
    have hk : k ≠ a := hm (k, w) (by simp)
    have ih := ih (fun c hc => hm c (by simp [hc]))
    by_cases hlt : a < k
    · simp [Memory.place, hlt, Memory.lookup, eq_comm]
    · by_cases hb : k = b
      · subst hb; simp [Memory.place, hlt, Memory.lookup, hk]
      · simp [Memory.place, hlt, Memory.lookup, hb, ih]

theorem Memory.key_ne_of_mem_remove {m : Memory} {a : Nat} {c : Host.Cell}
    (h : c ∈ Memory.remove m a) : c.1 ≠ a := by
  simp [Memory.remove] at h; exact h.2

theorem Memory.lookup_put (m : Memory) (a b : Nat) (v : Byte) :
    Memory.lookup (Memory.put m a v) b = if b = a then v else Memory.lookup m b := by
  unfold Memory.put
  split
  · next h => subst h; exact Memory.lookup_remove m a b
  · rw [Memory.lookup_place _ _ _ _ (fun _ => Memory.key_ne_of_mem_remove), Memory.lookup_remove]
    split <;> rfl

/-- A byte read after a byte write (R41, R53). -/
@[simp] theorem Memory.readByte_writeByte (m : Memory) (a b : Word) (v : Byte) :
    Memory.readByte (Memory.writeByte m a v) b = if b = a then v else Memory.readByte m b := by
  simp [Memory.readByte, Memory.writeByte, Memory.lookup_put, BitVec.toNat_inj]

/-- A byte read after a word write (R43). -/
theorem Memory.readByte_writeWord (m : Memory) (a b v : Word) :
    Memory.readByte (Memory.writeWord m a v) b =
      if b = a + 1#16 then hiByte v else if b = a then loByte v else Memory.readByte m b := by
  simp [Memory.writeWord]

theorem getLsbD_wordOfBytes (lo hi : Byte) (i : Nat) :
    (wordOfBytes lo hi).getLsbD i = if i < 8 then lo.getLsbD i else hi.getLsbD (i - 8) :=
  BitVec.getLsbD_append

@[simp] theorem wordOfBytes_lo_hi (v : Word) : wordOfBytes (loByte v) (hiByte v) = v := by
  refine BitVec.eq_of_getLsbD_eq fun i hi => ?_
  rw [getLsbD_wordOfBytes]
  by_cases h : i < 8
  · simp [loByte, h]
  · simp [hiByte, h, show i - 8 < 8 by omega, show 8 + (i - 8) = i by omega]

@[simp] theorem loByte_wordOfBytes (lo hi : Byte) : loByte (wordOfBytes lo hi) = lo := by
  refine BitVec.eq_of_getLsbD_eq fun i hi => ?_
  simp [loByte, getLsbD_wordOfBytes, hi]

@[simp] theorem hiByte_wordOfBytes (lo hi : Byte) : hiByte (wordOfBytes lo hi) = hi := by
  refine BitVec.eq_of_getLsbD_eq fun i hi => ?_
  simp [hiByte, getLsbD_wordOfBytes, hi]

theorem toNat_wordOfBytes (lo hi : Byte) : (wordOfBytes lo hi).toNat = lo.toNat + 256 * hi.toNat := by
  have h : (wordOfBytes lo hi).toNat = hi.toNat <<< 8 ||| lo.toNat := BitVec.toNat_append hi lo
  rw [h, ← Nat.shiftLeft_add_eq_or_of_lt lo.isLt, Nat.shiftLeft_eq]
  omega

/-- A word read at the address of a word write (R42, R43). -/
@[simp] theorem Memory.readWord_writeWord_same (m : Memory) (a v : Word) :
    Memory.readWord (Memory.writeWord m a v) a = v := by
  have h : a ≠ a + 1#16 := by bv_omega
  simp [Memory.readWord, Memory.readByte_writeWord, h]

/-- A word read two addresses or more away from a word write. -/
theorem Memory.readWord_writeWord_of_disjoint (m : Memory) (a b v : Word)
    (h0 : b ≠ a) (h1 : b ≠ a + 1#16) (h2 : b + 1#16 ≠ a) :
    Memory.readWord (Memory.writeWord m a v) b = Memory.readWord m b := by
  have h3 : b + 1#16 ≠ a + 1#16 := by bv_omega
  simp [Memory.readWord, Memory.readByte_writeWord, h0, h1, h2, h3]

/-! ### The canonical form -/

theorem Memory.wf_iff (m : Memory) :
    Memory.wf m = true ↔ m.Pairwise (fun c d => c.1 < d.1) ∧
      ∀ c ∈ m, c.1 < Config.memSize ∧ c.2 ≠ Memory.unlisted := by
  simp [Memory.wf]

theorem Memory.wf_nil : Memory.wf [] = true := by decide

theorem Memory.mem_place (m : Memory) (a : Nat) (v : Byte) (c : Host.Cell) :
    c ∈ Memory.place m a v ↔ c = (a, v) ∨ c ∈ m := by
  induction m with
  | nil => simp [Memory.place]
  | cons d m ih =>
    obtain ⟨k, w⟩ := d
    simp only [Memory.place]
    split
    · simp
    · simp [ih]; tauto

theorem Memory.pairwise_place {m : Memory} {a : Nat} (v : Byte)
    (h : m.Pairwise (fun c d => c.1 < d.1)) (hm : ∀ c ∈ m, c.1 ≠ a) :
    (Memory.place m a v).Pairwise (fun c d => c.1 < d.1) := by
  induction m with
  | nil => simp [Memory.place]
  | cons d m ih =>
    obtain ⟨k, w⟩ := d
    obtain ⟨hk, hm'⟩ := List.pairwise_cons.1 h
    have hne : k ≠ a := hm (k, w) (by simp)
    simp only [Memory.place]
    split
    · next hlt =>
      refine List.pairwise_cons.2 ⟨fun c hc => ?_, h⟩
      rcases List.mem_cons.1 hc with rfl | hc
      · exact hlt
      · exact Nat.lt_trans hlt (hk c hc)
    · refine List.pairwise_cons.2 ⟨fun c hc => ?_, ih hm' (fun c hc => hm c (by simp [hc]))⟩
      rcases (Memory.mem_place m a v c).1 hc with rfl | hc
      · show k < a; omega
      · exact hk c hc

theorem Memory.wf_put {m : Memory} {a : Nat} (v : Byte) (h : Memory.wf m = true)
    (ha : a < Config.memSize) : Memory.wf (Memory.put m a v) = true := by
  rw [Memory.wf_iff] at h ⊢
  have hr : (Memory.remove m a).Pairwise (fun c d => c.1 < d.1) := h.1.filter _
  have hrm : ∀ c ∈ Memory.remove m a, c ∈ m := fun c hc => (List.mem_filter.1 hc).1
  unfold Memory.put
  split
  · exact ⟨hr, fun c hc => h.2 c (hrm c hc)⟩
  · next hv =>
    refine ⟨Memory.pairwise_place v hr (fun _ => Memory.key_ne_of_mem_remove), fun c hc => ?_⟩
    rcases (Memory.mem_place _ a v c).1 hc with rfl | hc
    · exact ⟨ha, hv⟩
    · exact h.2 c (hrm c hc)

theorem Memory.wf_writeByte {m : Memory} (a : Word) (v : Byte) (h : Memory.wf m = true) :
    Memory.wf (Memory.writeByte m a v) = true :=
  Memory.wf_put v h a.isLt

theorem Memory.wf_writeWord {m : Memory} (a v : Word) (h : Memory.wf m = true) :
    Memory.wf (Memory.writeWord m a v) = true :=
  Memory.wf_writeByte _ _ (Memory.wf_writeByte _ _ h)

theorem Memory.wf_alignedWrite {m m' : Memory} {a v : Word} (h : Memory.wf m = true)
    (hw : Memory.alignedWrite m a v = some m') : Memory.wf m' = true := by
  unfold Memory.alignedWrite at hw
  split at hw
  · cases hw
  · cases hw; exact Memory.wf_writeWord a v h

theorem Memory.lookup_eq_unlisted {m : Memory} {a : Nat} (h : ∀ c ∈ m, a < c.1) :
    Memory.lookup m a = Memory.unlisted := by
  induction m with
  | nil => rfl
  | cons c m ih =>
    obtain ⟨k, v⟩ := c
    have hk : a < k := h (k, v) (by simp)
    simp [Memory.lookup, Nat.ne_of_gt hk, ih (fun c hc => h c (by simp [hc]))]

/-- Two canonical memories with the same bytes are the same list. -/
theorem Memory.eq_of_lookup_eq {m n : Memory} (hm : Memory.wf m = true) (hn : Memory.wf n = true)
    (h : ∀ a, Memory.lookup m a = Memory.lookup n a) : m = n := by
  induction m generalizing n with
  | nil =>
    cases n with
    | nil => rfl
    | cons d n =>
      obtain ⟨k, w⟩ := d
      have := (((Memory.wf_iff _).1 hn).2 (k, w) (by simp)).2
      have := h k
      simp_all [Memory.lookup]
  | cons c m ih =>
    obtain ⟨k, v⟩ := c
    obtain ⟨hmp, hmv⟩ := (Memory.wf_iff _).1 hm
    obtain ⟨hk, hmp'⟩ := List.pairwise_cons.1 hmp
    have hv := (hmv (k, v) (by simp)).2
    cases n with
    | nil =>
      have := h k
      simp_all [Memory.lookup]
    | cons d n =>
      obtain ⟨l, w⟩ := d
      obtain ⟨hnp, hnv⟩ := (Memory.wf_iff _).1 hn
      obtain ⟨hl, hnp'⟩ := List.pairwise_cons.1 hnp
      have hw := (hnv (l, w) (by simp)).2
      have hkl : k = l := by
        rcases Nat.lt_trichotomy k l with hlt | heq | hgt
        · exfalso
          have e := h k
          rw [Memory.lookup_eq_unlisted (m := (l, w) :: n) (by
            intro c hc
            rcases List.mem_cons.1 hc with rfl | hc
            · exact hlt
            · exact Nat.lt_trans hlt (hl c hc))] at e
          simp [Memory.lookup] at e
          exact hv e
        · exact heq
        · exfalso
          have e := h l
          rw [Memory.lookup_eq_unlisted (m := (k, v) :: m) (by
            intro c hc
            rcases List.mem_cons.1 hc with rfl | hc
            · exact hgt
            · exact Nat.lt_trans hgt (hk c hc))] at e
          simp [Memory.lookup] at e
          exact hw e.symm
      subst hkl
      have hvw : v = w := by simpa [Memory.lookup] using h k
      subst hvw
      have hrest : m = n := by
        refine ih ((Memory.wf_iff _).2 ⟨hmp', fun c hc => hmv c (by simp [hc])⟩)
          ((Memory.wf_iff _).2 ⟨hnp', fun c hc => hnv c (by simp [hc])⟩) (fun a => ?_)
        by_cases ha : k = a
        · subst ha
          rw [Memory.lookup_eq_unlisted hk, Memory.lookup_eq_unlisted hl]
        · simpa [Memory.lookup, ha] using h a
      rw [hrest]

end Sys2Proof.Machine
end

