-- ==== Sys2Proof/Laws/Ops.lean ====
section
/-! SUPPORT. What the shared operations do, once: the flags, the stack, interrupt entry and the
return from it, the SP-zero rule, the resolver. -/

namespace Sys2Proof.Machine

/-! ### Flags -/

theorem Flags.getLsbD_setNzp (f v : Word) (j : Nat) :
    (Flags.setNzp f v).getLsbD j = if j < 3 then (nzpOf v).getLsbD j else f.getLsbD j := by
  have h : (Flags.setNzp f v).getLsbD j =
      if j < 3 then (nzpOf v).getLsbD j else (f.extractLsb' 3 13).getLsbD (j - 3) :=
    BitVec.getLsbD_append
  rw [h]
  by_cases hj : j < 3
  · simp [hj]
  · simp only [hj, if_false, BitVec.getLsbD_extractLsb', show 3 + (j - 3) = j by omega]
    by_cases h16 : j < 16
    · simp [show j - 3 < 13 by omega]
    · simp [BitVec.getLsbD_of_ge _ _ (Nat.le_of_not_lt h16)]

@[simp] theorem Flags.nzp_setNzp (f v : Word) : Flags.nzp (Flags.setNzp f v) = nzpOf v := by
  refine BitVec.eq_of_getLsbD_eq fun j hj => ?_
  simp [Flags.nzp, Flags.getLsbD_setNzp, hj]

@[simp] theorem Flags.ie_setNzp (f v : Word) : Flags.ie (Flags.setNzp f v) = Flags.ie f := by
  exact Flags.getLsbD_setNzp f v 3

theorem Flags.getLsbD_clearIe (f : Word) (j : Nat) :
    (Flags.clearIe f).getLsbD j = (f.getLsbD j && decide (j ≠ 3)) := by
  by_cases h16 : j < 16
  · have hc : ∀ k : Fin 16, (0xFFF7#16).getLsbD k = decide (k.val ≠ 3) := by decide
    simp only [Flags.clearIe, BitVec.getLsbD_and]
    rw [hc ⟨j, h16⟩]
  · simp [BitVec.getLsbD_of_ge _ _ (Nat.le_of_not_lt h16)]

@[simp] theorem Flags.ie_clearIe (f : Word) : Flags.ie (Flags.clearIe f) = false := by
  exact (Flags.getLsbD_clearIe f 3).trans (by simp)

/-! ### Alignment -/

theorem odd_iff (a : Word) : odd a = true ↔ a.toNat % 2 = 1 := by
  simp [odd, BitVec.getLsbD, Nat.testBit_zero]

theorem odd_eq_false_iff (a : Word) : odd a = false ↔ a.toNat % 2 = 0 := by
  rw [← Bool.not_eq_true, odd_iff]; omega

/-- The vector's address is even, so its aligned read succeeds and is the raw read (R204). -/
theorem odd_vectorAddr (k : IrqNum) : odd (vectorAddr k) = false := by
  revert k; decide

theorem alignedRead_vector (m : Memory) (k : IrqNum) :
    Memory.alignedRead m (vectorAddr k) = some (Memory.readWord m (vectorAddr k)) := by
  simp [Memory.alignedRead, odd_vectorAddr]

/-! ### The SP-zero rule -/

@[simp] theorem State.flags_spZeroRule (s : State) : s.spZeroRule.flags = s.flags := by
  unfold State.spZeroRule; split <;> rfl

@[simp] theorem State.mem_spZeroRule (s : State) : s.spZeroRule.mem = s.mem := by
  unfold State.spZeroRule; split <;> rfl

@[simp] theorem State.irqs_spZeroRule (s : State) : s.spZeroRule.irqs = s.irqs := by
  unfold State.spZeroRule; split <;> rfl

theorem State.get_spZeroRule (s : State) (r : Reg) :
    s.spZeroRule.get r = if r = .sp ∧ s.get .sp = 0#16 then Config.spDefault else s.get r := by
  unfold State.spZeroRule
  by_cases h : s.get .sp = 0#16 <;> by_cases hr : r = .sp <;> simp [h, hr]

@[simp] theorem State.window_spZeroRule (s : State) : s.spZeroRule.window = s.window := by
  simp [State.window, State.get_spZeroRule]

theorem State.spZeroRule_of_ne {s : State} (h : s.get .sp ≠ 0#16) : s.spZeroRule = s := by
  simp [State.spZeroRule, h]

/-! ### The stack -/

@[simp] theorem State.get_push (s : State) (v : Word) (r : Reg) :
    (s.push v).get r = if r = .sp then s.get .sp - 2#16 else s.get r := by
  simp [State.push]

@[simp] theorem State.flags_push (s : State) (v : Word) : (s.push v).flags = s.flags := rfl
@[simp] theorem State.irqs_push (s : State) (v : Word) : (s.push v).irqs = s.irqs := rfl
@[simp] theorem State.mem_push (s : State) (v : Word) :
    (s.push v).mem = Memory.writeWord s.mem (s.get .sp - 2#16) v := rfl

@[simp] theorem State.pop_value (s : State) : s.pop.1 = Memory.readWord s.mem (s.get .sp) := rfl
@[simp] theorem State.get_pop (s : State) (r : Reg) :
    s.pop.2.get r = if r = .sp then s.get .sp + 2#16 else s.get r := by
  simp [State.pop]
@[simp] theorem State.flags_pop (s : State) : s.pop.2.flags = s.flags := rfl
@[simp] theorem State.mem_pop (s : State) : s.pop.2.mem = s.mem := rfl
@[simp] theorem State.irqs_pop (s : State) : s.pop.2.irqs = s.irqs := rfl

/-- RET's return, register by register (R170). -/
theorem State.get_returnFromStack (s : State) (r : Reg) :
    s.returnFromStack.get r =
      if r = .ip then Memory.readWord s.mem (s.get .sp)
      else if r = .sp then (if Flags.ie s.flags then s.get .sp + 2#16 else s.get .sp + 4#16)
      else s.get r := by
  unfold State.returnFromStack
  cases r <;> by_cases h : Flags.ie s.flags = true <;> simp [h, BitVec.add_assoc]

theorem State.flags_returnFromStack (s : State) :
    s.returnFromStack.flags =
      if Flags.ie s.flags then s.flags else Memory.readWord s.mem (s.get .sp + 2#16) := by
  unfold State.returnFromStack
  by_cases h : Flags.ie s.flags = true <;> simp [h]

@[simp] theorem State.mem_returnFromStack (s : State) : s.returnFromStack.mem = s.mem := by
  unfold State.returnFromStack
  split <;> rfl

@[simp] theorem State.irqs_returnFromStack (s : State) : s.returnFromStack.irqs = s.irqs := by
  unfold State.returnFromStack
  split <;> rfl

/-! ### Interrupt entry -/

/-- Everything interrupt entry can answer (R210). -/
theorem State.interruptEntry_cases (k : IrqNum) (s : State) :
    (odd (s.get .sp) = true ∧ s.interruptEntry k = .fault (.unaligned s)) ∨
    (odd (s.get .sp) = false ∧ ∃ t, s.interruptEntry k = .next t ∧
      t.mem = Memory.writeWord (Memory.writeWord s.mem (s.get .sp - 2#16) s.flags)
        (s.get .sp - 2#16 - 2#16) (s.get .ip) ∧
      t.flags = Flags.clearIe s.flags ∧ t.irqs = s.irqs ∧
      ∀ r, t.get r = if r = .ip then Memory.readWord t.mem (vectorAddr k)
        else if r = .sp then s.get .sp - 2#16 - 2#16 else s.get r) := by
  by_cases h : odd (s.get .sp) = true
  · exact .inl ⟨h, by simp [State.interruptEntry, h]⟩
  · rw [Bool.not_eq_true] at h
    refine .inr ⟨h, ?_⟩
    simp only [State.interruptEntry, h, Bool.false_eq_true, if_false]
    refine ⟨_, rfl, rfl, rfl, rfl, fun r => ?_⟩
    cases r <;> simp

/-! ### The resolver -/

@[simp] theorem flags_preDecrement (m : Mem) (s : State) : (preDecrement m s).flags = s.flags := by
  unfold preDecrement; split <;> rfl
@[simp] theorem mem_preDecrement (m : Mem) (s : State) : (preDecrement m s).mem = s.mem := by
  unfold preDecrement; split <;> rfl
@[simp] theorem irqs_preDecrement (m : Mem) (s : State) : (preDecrement m s).irqs = s.irqs := by
  unfold preDecrement; split <;> rfl

@[simp] theorem flags_consumeBase (m : Mem) (s : State) : (consumeBase m s).flags = s.flags := by
  unfold consumeBase; split <;> rfl
@[simp] theorem mem_consumeBase (m : Mem) (s : State) : (consumeBase m s).mem = s.mem := by
  unfold consumeBase; split <;> rfl
@[simp] theorem irqs_consumeBase (m : Mem) (s : State) : (consumeBase m s).irqs = s.irqs := by
  unfold consumeBase; split <;> rfl

@[simp] theorem flags_postIncrement (m : Mem) (s : State) : (postIncrement m s).flags = s.flags := by
  unfold postIncrement; split <;> rfl
@[simp] theorem mem_postIncrement (m : Mem) (s : State) : (postIncrement m s).mem = s.mem := by
  unfold postIncrement; split <;> rfl
@[simp] theorem irqs_postIncrement (m : Mem) (s : State) : (postIncrement m s).irqs = s.irqs := by
  unfold postIncrement; split <;> rfl

/-- The resolver writes registers only (R116). -/
@[simp] theorem flags_resolve (m : Mem) (s : State) : (resolve m s).2.flags = s.flags := by
  simp [resolve]
@[simp] theorem mem_resolve (m : Mem) (s : State) : (resolve m s).2.mem = s.mem := by
  simp [resolve]
@[simp] theorem irqs_resolve (m : Mem) (s : State) : (resolve m s).2.irqs = s.irqs := by
  simp [resolve]

/-- The resolver writes the index register and IP only (R110). -/
theorem get_resolve_of_ne (m : Mem) (s : State) (r : Reg) (hn : r ≠ m.n) (hip : r ≠ .ip) :
    (resolve m s).2.get r = s.get r := by
  have h1 : (preDecrement m s).get r = s.get r := by unfold preDecrement; split <;> simp [hn]
  have h2 : ∀ t, (consumeBase m t).get r = t.get r := by
    intro t; unfold consumeBase; split <;> simp [hip]
  have h3 : ∀ t, (postIncrement m t).get r = t.get r := by
    intro t; unfold postIncrement; split <;> simp [hn]
  simp [resolve, h1, h2, h3]

end Sys2Proof.Machine
end

