-- ==== Sys2Proof/Laws/PerInstr.lean ====
section
/-! SUPPORT. Facts of every instruction as syntax, one lemma per constructor. Family EncodeLength:
the encoder writes as many bytes as R70 gives the instruction. -/

namespace Sys2Proof.Laws.EncodeLength

/-- The encoding has the length of R70. -/
def Statement (i : Instr) : Prop := (encode i).length = i.length

theorem encodeMem_length (m : Mem) : (encodeMem m).length = m.length := by
  obtain ⟨base, _, _, _, _⟩ := m
  cases base <;> rfl

theorem ret : Statement .ret := rfl
theorem jcc (mask : BitVec 3) (disp : BitVec 5) : Statement (.jcc mask disp) := rfl
theorem jmp (t : Word) : Statement (.jmp t) := rfl
theorem call (t : Word) : Statement (.call t) := rfl
theorem ld (s : Reg) (m : Mem) : Statement (.ld s m) := by
  simp [Statement, encode, Instr.length, encodeMem_length, Nat.add_comm]
theorem st (s : Reg) (m : Mem) : Statement (.st s m) := by
  simp [Statement, encode, Instr.length, encodeMem_length, Nat.add_comm]
theorem lea (s : Reg) (m : Mem) : Statement (.lea s m) := by
  simp [Statement, encode, Instr.length, encodeMem_length, Nat.add_comm]
theorem illegalM (s : Reg) : Statement (.illegalM s) := rfl
theorem ldi (d : Reg) (w : Word) : Statement (.ldi d w) := rfl
theorem shl (d : Reg) (a : Bool) (c : Count) : Statement (.shl d a c) := rfl
theorem shr (d : Reg) (c : Count) : Statement (.shr d c) := rfl
theorem sar (d : Reg) (c : Count) : Statement (.sar d c) := rfl
theorem illegalShift (d : Reg) (dir a : Bool) (k : BitVec 5) : Statement (.illegalShift d dir a k) := rfl
theorem not (d : Reg) : Statement (.not d) := rfl
theorem neg (d : Reg) : Statement (.neg d) := rfl
theorem mov (d s : Reg) : Statement (.mov d s) := rfl
theorem add (d s : Reg) : Statement (.add d s) := rfl
theorem and (d s : Reg) : Statement (.and d s) := rfl
theorem xor (d s : Reg) : Statement (.xor d s) := rfl

end Sys2Proof.Laws.EncodeLength
end

