-- ==== Sys2Proof/Laws/Step.lean ====
section
/-! SUPPORT. What an instruction and a step can do, once: a property kept by every register write,
flag write and byte write is kept by every instruction and every step, whatever they answer; the end
of an ALU instruction; the frame of the resolver as LD, ST and LEA call it. -/

namespace Sys2Proof.Machine

open Sys2Proof.Safety

/-! ### Consumed bytes and the window -/

theorem State.consume_consume (s : State) (a b : Word) : (s.consume a).consume b = s.consume (a + b) := by
  simp [State.consume, State.set, State.get, Regs.get, Regs.set, BitVec.add_assoc]

/-- `Fetch8()` after the opcode byte reads the window's second byte (R46). -/
theorem State.fetch8_consume_one (s : State) :
    (s.consume 1#16).fetch8 = (s.window.b1, s.consume 2#16) := by
  simp [State.fetch8, State.window, Memory.windowAt, State.consume_consume]

/-- `Fetch16()` after the opcode byte reads the window's second and third bytes (R46). -/
theorem State.fetch16_consume_one (s : State) :
    (s.consume 1#16).fetch16 = (wordOfBytes s.window.b1 s.window.b2, s.consume 3#16) := by
  have h : s.get .ip + 1#16 + 1#16 = s.get .ip + 2#16 := by bv_omega
  simp [State.fetch16, Memory.readWord, State.window, Memory.windowAt, State.consume_consume, h]

/-! ### The resolver as the memory family calls it -/

/-- The resolver writes the index register and IP only. -/
theorem sameRegs_resolveOperand (m : Mem) (s : State) :
    SameRegsBut [m.n, .ip] s (resolveOperand m s).2 := by
  intro r hr
  simp at hr
  simp [resolveOperand, get_resolve_of_ne m _ r hr.1 hr.2, hr.2]

@[simp] theorem flags_resolveOperand (m : Mem) (s : State) : (resolveOperand m s).2.flags = s.flags := by
  simp [resolveOperand]
@[simp] theorem mem_resolveOperand (m : Mem) (s : State) : (resolveOperand m s).2.mem = s.mem := by
  simp [resolveOperand]
@[simp] theorem irqs_resolveOperand (m : Mem) (s : State) : (resolveOperand m s).2.irqs = s.irqs := by
  simp [resolveOperand]

/-! ### The end of an ALU instruction -/

@[simp] theorem State.get_setResult (s : State) (d r : Reg) (v : Word) :
    (s.setResult d v).get r = if r = d then v else s.get r := by
  simp [State.setResult]
@[simp] theorem State.flags_setResult (s : State) (d : Reg) (v : Word) :
    (s.setResult d v).flags = Flags.setNzp s.flags v := rfl
@[simp] theorem State.mem_setResult (s : State) (d : Reg) (v : Word) : (s.setResult d v).mem = s.mem := rfl
@[simp] theorem State.irqs_setResult (s : State) (d : Reg) (v : Word) : (s.setResult d v).irqs = s.irqs := rfl

/-- F[15:3] after `set_nzp`. -/
theorem Flags.setNzp_upper (f v : Word) : Flags.setNzp f v >>> 3 = f >>> 3 := by
  refine BitVec.eq_of_getLsbD_eq fun j hj => ?_
  simp only [BitVec.getLsbD_ushiftRight, Flags.getLsbD_setNzp, show ¬ (3 + j < 3) by omega, if_false]

/-! ### Properties kept by every step -/

section Preserved

variable {P : State → Prop}
  (hreg : ∀ t r v, P t → P (t.set r v)) (hflags : ∀ t f, P t → P (t.setFlags f))
  (hbyte : ∀ t a v, P t → P (t.setMem (Memory.writeByte t.mem a v)))

include hbyte in
theorem writeWord_preserves (t : State) (a v : Word) (h : P t) :
    P (t.setMem (Memory.writeWord t.mem a v)) :=
  hbyte (t.setMem (Memory.writeByte t.mem a (loByte v))) (a + 1#16) (hiByte v) (hbyte _ _ _ h)

include hreg in
theorem consume_preserves (t : State) (k : Word) (h : P t) : P (t.consume k) := hreg _ _ _ h

include hreg hbyte in
theorem push_preserves (t : State) (v : Word) (h : P t) : P (t.push v) :=
  writeWord_preserves hbyte (t.set .sp _) _ _ (hreg _ _ _ h)

include hreg hflags in
theorem setResult_preserves (t : State) (d : Reg) (v : Word) (h : P t) : P (t.setResult d v) :=
  hflags _ _ (hreg _ _ _ h)

include hreg hflags in
theorem returnFromStack_preserves (t : State) (h : P t) : P t.returnFromStack := by
  unfold State.returnFromStack
  dsimp only
  split
  · exact hreg _ _ _ (hreg _ _ _ h)
  · exact hflags _ _ (hreg _ _ _ (hreg _ _ _ (hreg _ _ _ h)))

include hreg in
theorem resolve_preserves (m : Mem) (t : State) (h : P t) : P (resolve m t).2 := by
  have h1 : P (preDecrement m t) := by
    unfold preDecrement
    split
    · exact hreg _ _ _ h
    · exact h
  have h2 : P (consumeBase m (preDecrement m t)) := by
    unfold consumeBase
    split <;> first | exact h1 | exact consume_preserves hreg _ _ h1
  show P (postIncrement m _)
  unfold postIncrement
  split
  · exact hreg _ _ _ h2
  · exact h2

include hreg hflags hbyte in
/-- A property that every register write, flag write and byte write keeps is kept by every
instruction, in the next state as in the state a fault leaves. -/
theorem exec_preserves (i : Instr) {s t : State} {c : OutcomeCode} (hs : P s)
    (h : outcomeOf (exec i s) = some (c, t)) : P t := by
  have hc := fun k => consume_preserves hreg s k hs
  have hres : ∀ m, P (resolveOperand m s).2 := fun m => resolve_preserves hreg m _ (hc _)
  cases i <;> simp only [exec] at h
  case ret =>
    unfold execRet at h; dsimp only at h
    split at h <;> cases h
    · exact hc _
    · exact returnFromStack_preserves hreg hflags _ (hc _)
  case jcc =>
    cases h
    split
    · exact hreg _ _ _ (hc _)
    · exact hc _
  case jmp => cases h; exact hreg _ _ _ (hc _)
  case call =>
    unfold execCall at h; dsimp only at h
    split at h <;> cases h
    · exact hc _
    · exact hreg _ _ _ (push_preserves hreg hbyte _ _ (hc _))
  case ld d m =>
    unfold execLd at h; dsimp only at h
    split at h
    · cases h; exact hreg _ _ _ (hres m)
    · split at h <;> cases h
      · exact hreg _ _ _ (hres m)
      · exact hres m
  case st d m =>
    unfold execSt at h; dsimp only at h
    split at h
    · cases h; exact hbyte _ _ _ (hres m)
    · split at h <;> cases h
      · next hm =>
        unfold Memory.alignedWrite at hm
        split at hm <;> cases hm
        exact writeWord_preserves hbyte _ _ _ (hres m)
      · exact hres m
  case lea d m => cases h; exact hreg _ _ _ (hres m)
  all_goals
    cases h
    first | exact hc _ | exact setResult_preserves hreg hflags _ _ _ (hc _)

include hreg hflags hbyte in
/-- The same for a whole step, whatever is presented to it. -/
theorem stepWith_preserves (irq : Option IrqNum) {s t : State} {c : OutcomeCode} (hs : P s)
    (h : outcomeOf (stepWith irq s) = some (c, t)) : P t := by
  have hz : P s.spZeroRule := by
    unfold State.spZeroRule
    split
    · exact hreg _ _ _ hs
    · exact hs
  unfold stepWith at h
  dsimp only at h
  split at h
  · unfold State.interruptEntry at h
    dsimp only at h
    split at h <;> cases h
    · exact hz
    · exact hreg _ _ _ (hflags _ _ (push_preserves hreg hbyte _ _ (push_preserves hreg hbyte _ _ hz)))
  · exact exec_preserves hreg hflags hbyte _ hz h

end Preserved

/-- A step that takes no interrupt executes the decoded instruction after the SP-zero rule. -/
theorem stepWith_of_not_accepted {irq : Option IrqNum} {s : State} (h : s.accepts irq = none) :
    stepWith irq s = exec (decode s.window) s.spZeroRule := by
  have h' : s.spZeroRule.accepts irq = none := by
    simpa [State.accepts] using h
  simp [stepWith, h']

/-- A step that takes an interrupt enters it after the SP-zero rule. -/
theorem stepWith_of_accepted {irq : Option IrqNum} {k : IrqNum} {s : State} (h : s.accepts irq = some k) :
    stepWith irq s = s.spZeroRule.interruptEntry k := by
  have h' : s.spZeroRule.accepts irq = some k := by
    simpa [State.accepts] using h
  simp [stepWith, h']

/-- One more step at the end of a run. -/
theorem run_succ (M : Host.Core) (n : Nat) (s t : M.State) (h : Host.Core.run M n s = .next t) :
    Host.Core.run M (n + 1) s = match M.step t with
      | .next u => .next u
      | .fault r => .fault r
      | .refused r => .refused r := by
  induction n generalizing s with
  | zero =>
    cases h
    rfl
  | succ n ih =>
    rw [Host.Core.run] at h ⊢
    cases hs : M.step s with
    | next v => rw [hs] at h; exact ih v h
    | fault r => rw [hs] at h; cases h
    | refused r => rw [hs] at h; cases h

end Sys2Proof.Machine
end

