-- ==== Sys2Proof/Tests/Slice0.lean ====
section
/-! SUPPORT. Tests: ill-formed terms, words written out from the patterns of R69, one-step vectors
whose expected values are those of 95_test_vectors.md (the vector's name stands at each), and a
witness for the hypotheses of each statement that has some. -/

namespace Sys2Proof.Tests

open Sys2Proof.Machine Sys2Proof.Safety

/-! ### Helpers -/

/-- The start state of 95_test_vectors.md: IP = 0x0100, SP = 0xFFF0, F = 0x0008, all else 0. -/
def base : State :=
  ((State.reset.set .ip 0x0100#16).set .sp 0xFFF0#16).setFlags 0x0008#16

/-- Puts bytes at an address and after it. -/
def poke (s : State) (a : Word) : List Byte → State
  | [] => s
  | b :: bs => poke (s.setMem (Memory.writeByte s.mem a b)) (a + 1#16) bs

/-- The state with the bytes at IP. -/
def code (bs : List Byte) (s : State) : State := poke s (s.get .ip) bs

/-- The outcome of one step with `irq` presented, and what `f` sees of the state it leaves. -/
def after {α : Type} (irq : Option IrqNum) (s : State) (f : State → α) : Option (OutcomeCode × α) :=
  (outcomeOf (stepWith irq s)).map fun p => (p.1, f p.2)

/-! ### Ill-formed terms (WellFormed) -/

theorem test_wf_refuses_ip_as_d :
    (Instr.ldi .ip 0).wf = false ∧ (Instr.shl .ip false (.imm 0)).wf = false ∧
    (Instr.shr .ip (.imm 0)).wf = false ∧ (Instr.sar .ip (.imm 0)).wf = false ∧
    (Instr.not .ip).wf = false ∧ (Instr.neg .ip).wf = false ∧ (Instr.mov .ip .r1).wf = false ∧
    (Instr.add .ip .r1).wf = false ∧ (Instr.and .ip .r1).wf = false ∧ (Instr.xor .ip .r1).wf = false ∧
    (Instr.illegalShift .ip false false 8).wf = false := by decide

theorem test_wf_refuses_ip_as_s :
    (Instr.ld .ip ⟨.none, .byte, false, false, .r1⟩).wf = false ∧
    (Instr.st .ip ⟨.none, .byte, false, false, .r1⟩).wf = false ∧
    (Instr.lea .ip ⟨.none, .byte, false, false, .r1⟩).wf = false ∧ (Instr.illegalM .ip).wf = false ∧
    (Instr.mov .r1 .ip).wf = false ∧ (Instr.add .r1 .ip).wf = false ∧
    (Instr.and .r1 .ip).wf = false ∧ (Instr.xor .r1 .ip).wf = false := by decide

theorem test_wf_refuses_illegal_shift_with_legal_count :
    (Instr.illegalShift .r1 false false 7).wf = false ∧
    (Instr.illegalShift .r1 false false 8).wf = true := by decide

theorem test_wf_accepts_index_ip : (Instr.ld .r1 ⟨.sp, .word, true, true, .ip⟩).wf = true := by decide

/-! ### Decoding words written out from R69 -/

theorem test_decode_control_flow :
    decode ⟨0b00000000, 0, 0, 0⟩ = .ret ∧
    decode ⟨0b01000000, 0b11111110, 0, 0⟩ = .jcc 0b111 0b11110 ∧
    decode ⟨0b10000000, 0x34, 0x12, 0⟩ = .jmp 0x1234 ∧
    decode ⟨0b11000000, 0x34, 0x12, 0⟩ = .call 0x1234 := by decide

theorem test_decode_memory :
    decode ⟨0b00000001, 0b01100010, 0, 0⟩ = .ld .r1 ⟨.bp, .word, false, false, .r2⟩ ∧
    decode ⟨0b01000111, 0b10001111, 0, 0⟩ = .st .sp ⟨.sp, .byte, false, true, .sp⟩ ∧
    decode ⟨0b10000011, 0b11110000, 0x34, 0x12⟩ = .lea .r3 ⟨.imm 0x1234, .word, true, false, .ip⟩ ∧
    decode ⟨0b11000101, 0, 0, 0⟩ = .illegalM .r5 := by decide

theorem test_decode_immediate_and_shift :
    decode ⟨0b00111000, 0x34, 0x12, 0⟩ = .ldi .sp 0x1234 ∧
    decode ⟨0b01001000, 0b01011111, 0, 0⟩ = .shl .r1 true (.imm 31) ∧
    decode ⟨0b01001000, 0b10100111, 0, 0⟩ = .shr .r1 (.reg .sp) ∧
    decode ⟨0b01110000, 0b11000100, 0, 0⟩ = .sar .bp (.imm 4) ∧
    decode ⟨0b01001000, 0b10101000, 0, 0⟩ = .illegalShift .r1 true false 8 ∧
    decode ⟨0b10010000, 0, 0, 0⟩ = .not .r2 ∧ decode ⟨0b11010000, 0, 0, 0⟩ = .neg .r2 := by decide

theorem test_decode_register :
    decode ⟨0b00001010, 0, 0, 0⟩ = .mov .r1 .r2 ∧ decode ⟨0b01111001, 0, 0, 0⟩ = .add .sp .r1 ∧
    decode ⟨0b10110001, 0, 0, 0⟩ = .and .bp .r1 ∧ decode ⟨0b11100101, 0, 0, 0⟩ = .xor .r4 .r5 := by decide

theorem test_encode_inverts_words :
    encode (.st .r3 ⟨.none, .word, true, false, .r4⟩) = [0b01000011, 0b00110100] ∧
    encode (.lea .r3 ⟨.imm 0x1000, .word, false, false, .r2⟩) = [0b10000011, 0b11100010, 0x00, 0x10] ∧
    encode (.illegalShift .r1 false false 8) = [0b01001000, 0b00101000] ∧
    encode (.jcc 0b010 0b11111) = [0b01000000, 0b01011111] := by decide

theorem test_decodeBytes_names_truncation :
    (match decodeBytes [0xC0, 0x00] with | .error e => some e | .ok _ => none) = some .truncated ∧
    (match decodeBytes [0x01, 0xC2, 0x00, 0x10, 0x99] with | .ok (_, rest) => some rest | .error _ => none)
      = some [0x99] := by decide

/-- A 16-bit row of the opcode table has the opcode byte in bits 15:8 (INDEX.md). -/
theorem test_table_word_numbering :
    decodeTableWord 16 0x48C4 = some (.sar .r1 (.imm 4)) ∧ decodeTableWord 8 0x4A = some (.add .r1 .r2) ∧
    decodeTableWord 16 0x4828 = some (.illegalShift .r1 false false 8) ∧
    decodeTableWord 7 0 = none := by decide

/-- A placed table word is what the first step after reset runs. -/
theorem test_fetch_word_runs_after_reset :
    (outcomeOf (step (State.reset.withFetchWord 8 0x90))).map (fun p => (p.1, p.2.get .r2, p.2.get .ip))
      = some (.cont, 0xFFFF, 1) ∧
    (outcomeOf (step (State.reset.withFetchWord 16 0x4828))).map (fun p => (p.1, p.2.get .ip))
      = some (.illegal, 2) := by decide

/-! ### One step: the step itself -/

/-- Vector S6. -/
theorem test_sp_zero_before_instruction :
    after none (code [0x0A] (((base.set .sp 0).set .r2 5).setFlags 0))
      (fun t => (t.get .sp, t.get .r1, t.flags, t.get .ip)) = some (.cont, 0xFFF0, 5, 1, 0x0101) := by decide

/-- Vector ST1: the SP-zero rule stays after a fault. -/
theorem test_sp_zero_stays_after_fault :
    after none (code [0xC1] (base.set .sp 0)) (fun t => (t.get .sp, t.get .ip))
      = some (.illegal, 0xFFF0, 0x0101) := by decide

/-- Vectors IR6 and IR4: entry after the SP-zero rule, and the frame. -/
theorem test_interrupt_entry :
    after (some 2) (poke (base.set .sp 0) 0xFFF4 [0x00, 0x60])
      (fun t => (t.get .ip, t.get .sp, t.flags)) = some (.cont, 0x6000, 0xFFEC, 0) ∧
    after (some 7) (poke base 0xFFFE [0x00, 0x50])
      (fun t => (t.get .ip, Memory.readWord t.mem 0xFFEE, Memory.readWord t.mem 0xFFEC))
      = some (.cont, 0x5000, 0x0008, 0x0100) := by decide

/-- Vectors IR3 (the vector read sees a pushed word) and IR2 (odd SP, nothing changes). -/
theorem test_interrupt_entry_corners :
    after (some 0) (poke (base.set .sp 0xFFF4) 0xFFF0 [0x00, 0x10])
      (fun t => (t.get .ip, t.get .sp, t.flags)) = some (.cont, 0x0100, 0xFFF0, 0) ∧
    after (some 3) (base.set .sp 0xFFEF) (fun t => decide (t = base.set .sp 0xFFEF))
      = some (.unaligned, true) := by decide

/-- Vector IR1: a number presented with IE = 0 is ignored; and the input list moves on. -/
theorem test_input_read_once :
    (outcomeOf (step ((code [0x0A] ((base.set .r2 0x8000).setFlags 1)).setIrqs [some 0, some 1]))).map
      (fun p => (p.1, p.2.get .r1, p.2.flags, p.2.irqs)) = some (.cont, 0x8000, 4, [some 1]) := by decide

/-! ### One step: the memory family -/

/-- Vectors S2a and S2d. -/
theorem test_ld_odd_address :
    after none (code [0x01, 0x62] ((base.set .bp 0x0111).set .r1 0xAAAA)) (fun t => (t.get .r1, t.get .ip))
      = some (.unaligned, 0xAAAA, 0x0102) ∧
    after none (code [0x01, 0x42] (poke ((base.set .bp 0x0111).set .r1 0xAAAA) 0x0111 [0x80]))
      (fun t => (t.get .r1, t.flags)) = some (.cont, 0x0080, 8) := by decide

/-- Vectors RS1 and RS2: the mode-3 word fetched at the IP a pre-decrement has lowered. -/
theorem test_ld_index_ip_pre_decrement :
    after none (code [0x01, 0xE8] base) (fun t => (t.get .r1, t.get .ip))
      = some (.unaligned, 0, 0x0102) ∧
    after none (code [0x05, 0xC8, 0x00] (poke base 0x01CB [0x77])) (fun t => (t.get .r5, t.get .ip))
      = some (.cont, 0x0077, 0x0103) := by decide

/-- Vectors LS4 (the decremented SP is stored) and S2b. -/
theorem test_st :
    after none (code [0x47, 0x2F] base) (fun t => (t.get .sp, Memory.readWord t.mem 0xFFEE))
      = some (.cont, 0xFFEE, 0xFFEE) ∧
    after none (code [0x41, 0x24] ((base.set .r1 0xBEEF).set .r4 0x0201)) (fun t => t.mem)
      = some (.unaligned, (code [0x41, 0x24] base).mem) := by decide

/-- Vectors LS6 and LS8. -/
theorem test_lea :
    after none (code [0x81, 0x39] (base.set .r1 0x0010)) (fun t => (t.get .r1, t.flags))
      = some (.cont, 0x000E, 8) ∧
    after none (code [0x83, 0xE2, 0x00, 0x10] (base.set .r2 3)) (fun t => (t.get .r3, t.get .ip))
      = some (.cont, 0x1003, 0x0104) := by decide

/-- Vectors LS9 and LS10. -/
theorem test_illegal_memory_op :
    after none (code [0xC1] base) (fun t => t.get .ip) = some (.illegal, 0x0101) ∧
    after none (code [0xC7] base) (fun t => t.get .ip) = some (.illegal, 0x0101) := by decide

/-! ### One step: the ALU -/

/-- Vector AL1. -/
theorem test_ldi : after none (code [0x08, 0x00, 0x80] base) (fun t => (t.get .r1, t.flags, t.get .ip))
    = some (.cont, 0x8000, 0x000C, 0x0103) := by decide

/-- Vectors S3b (SP as count register) and SH6 (`arith` ignored). -/
theorem test_shl :
    after none (code [0x48, 0x27] ((base.set .r1 1).set .sp 0xFFE4)) (fun t => (t.get .r1, t.flags))
      = some (.cont, 0x0010, 9) ∧
    after none (code [0x48, 0x44] (base.set .r1 0x8001)) (fun t => (t.get .r1, t.flags))
      = some (.cont, 0x0010, 9) := by decide

/-- Vectors SH17 (IP as count register, past both bytes) and SH3 (16 places). -/
theorem test_shl_corners :
    after none (code [0x48, 0x20] (base.set .r1 1)) (fun t => t.get .r1) = some (.cont, 4) ∧
    after none (code [0x48, 0x10] (base.set .r1 0xFFFF)) (fun t => (t.get .r1, t.flags))
      = some (.cont, 0, 0x000A) := by decide

/-- Vectors SH15 and SH9. -/
theorem test_shr :
    after none (code [0x48, 0xA2] ((base.set .r1 0x8000).set .r2 3)) (fun t => (t.get .r1, t.flags))
      = some (.cont, 0x1000, 9) ∧
    after none (code [0x48, 0x9F] (base.set .r1 0xFFFF)) (fun t => (t.get .r1, t.flags))
      = some (.cont, 0, 0x000A) := by decide

/-- Vectors SH11 and SH13. -/
theorem test_sar :
    after none (code [0x48, 0xC4] (base.set .r1 0x8000)) (fun t => (t.get .r1, t.flags))
      = some (.cont, 0xF800, 0x000C) ∧
    after none (code [0x48, 0xDF] (base.set .r1 0x8000)) (fun t => (t.get .r1, t.flags))
      = some (.cont, 0xFFFF, 0x000C) := by decide

/-- Vectors S3a and SH19. -/
theorem test_illegal_shift :
    after none (code [0x48, 0x28] (base.set .r1 0x1234)) (fun t => (t.get .r1, t.flags, t.get .ip))
      = some (.illegal, 0x1234, 8, 0x0102) ∧
    after none (code [0x48, 0xFF] (base.set .r1 0x1234)) (fun t => (t.get .r1, t.get .ip))
      = some (.illegal, 0x1234, 0x0102) := by decide

/-- Vectors AL14 and AL15. -/
theorem test_not :
    after none (code [0x90] (base.set .r2 0x00FF)) (fun t => (t.get .r2, t.flags))
      = some (.cont, 0xFF00, 0x000C) ∧
    after none (code [0x90] (base.set .r2 0xFFFF)) (fun t => (t.get .r2, t.flags))
      = some (.cont, 0, 0x000A) := by decide

/-- Vectors AL17 and AL19. -/
theorem test_neg :
    after none (code [0xD0] (base.set .r2 5)) (fun t => (t.get .r2, t.flags))
      = some (.cont, 0xFFFB, 0x000C) ∧
    after none (code [0xD0] (base.set .r2 0x8000)) (fun t => (t.get .r2, t.flags))
      = some (.cont, 0x8000, 0x000C) := by decide

/-- Vectors AL21 (F[15:3] kept) and AL9 (`d` = `s`). -/
theorem test_mov :
    after none (code [0x0A] ((base.set .r2 1).setFlags 0x00F8)) (fun t => t.flags)
      = some (.cont, 0x00F9) ∧
    after none (code [0x09] (base.set .r1 0x0042)) (fun t => (t.get .r1, t.flags))
      = some (.cont, 0x0042, 9) := by decide

/-- Vectors S1 and AL3. -/
theorem test_add :
    after none (code [0x4A] ((base.set .r1 0x7FFF).set .r2 1)) (fun t => (t.get .r1, t.flags, t.get .ip))
      = some (.cont, 0x8000, 0x000C, 0x0101) ∧
    after none (code [0x4A] ((base.set .r1 0xFFFF).set .r2 1)) (fun t => (t.get .r1, t.flags))
      = some (.cont, 0, 0x000A) := by decide

/-- Vector AL11. -/
theorem test_and : after none (code [0x8A] ((base.set .r1 0xFFFF).set .r2 0x8001))
    (fun t => (t.get .r1, t.flags)) = some (.cont, 0x8001, 0x000C) := by decide

/-- Vectors AL13 and AL12. -/
theorem test_xor :
    after none (code [0xCA] ((base.set .r1 0x00FF).set .r2 0xFF00)) (fun t => (t.get .r1, t.flags))
      = some (.cont, 0xFFFF, 0x000C) ∧
    after none (code [0xDB] (base.set .r3 0x1234)) (fun t => (t.get .r3, t.flags))
      = some (.cont, 0, 0x000A) := by decide

/-! ### One step: control flow -/

/-- Vectors CF16 (RTI form, flags read past the wrap) and CF14 (plain form). -/
theorem test_ret :
    after none (code [0x00] (poke (poke ((base.set .sp 0xFFFE).setFlags 0) 0xFFFE [0x00, 0x30]) 0
      [0x0C, 0x00])) (fun t => (t.get .ip, t.flags, t.get .sp)) = some (.cont, 0x3000, 0x000C, 2) ∧
    after none (code [0x00] (poke (base.set .sp 0xFFEE) 0xFFEE [0x03, 0x01]))
      (fun t => (t.get .ip, t.flags, t.get .sp)) = some (.cont, 0x0103, 8, 0xFFF0) := by decide

/-- Vector CF15. -/
theorem test_ret_odd_sp : after none (code [0x00] (base.set .sp 0xFFED))
    (fun t => (t.get .ip, t.flags, t.get .sp)) = some (.unaligned, 0x0101, 8, 0xFFED) := by decide

/-- Vectors S7a, S7b. -/
theorem test_jcc :
    after none (code [0x40, 0x5F] (base.setFlags 2)) (fun t => t.get .ip) = some (.cont, 0x0101) ∧
    after none (code [0x40, 0x5F] (base.setFlags 1)) (fun t => t.get .ip) = some (.cont, 0x0102) := by decide

/-- Vectors CF4 (the target wraps) and CF6 (two mask bits). -/
theorem test_jcc_corners :
    after none (code [0x40, 0x2F] ((base.set .ip 0xFFFE).setFlags 1)) (fun t => t.get .ip)
      = some (.cont, 0x000F) ∧
    after none (code [0x40, 0x7E] (base.setFlags 1)) (fun t => t.get .ip) = some (.cont, 0x0100) := by decide

/-- Vector CF9. -/
theorem test_jmp : after none (code [0x80, 0x01, 0x00] base) (fun t => t.get .ip)
    = some (.cont, 0x0001) := by decide

/-- Vectors CF12 (a CALL across the top of memory) and CF10 (odd SP). -/
theorem test_call :
    after none (code [0xC0, 0x00, 0x20] (base.set .ip 0xFFFE))
      (fun t => (t.get .ip, t.get .sp, Memory.readWord t.mem 0xFFEE))
      = some (.cont, 0x2000, 0xFFEE, 0x0001) ∧
    after none (code [0xC0, 0x00, 0x20] (base.set .sp 0xFFEF)) (fun t => (t.get .ip, t.get .sp))
      = some (.unaligned, 0x0103, 0xFFEF) := by decide

/-! ### Witnesses

For each statement with hypotheses: a concrete state and operands that meet them all, for each of its
clauses, at boundary values. -/

theorem witness_SpZeroRuleRunsFirst : (base.set .sp 0).get .sp = 0 ∧ (base.set .sp 1).get .sp ≠ 0 ∧
    (base.set .sp 0xFFFF).get .sp ≠ 0 := by decide

/-- Nothing presented; a number presented with IE clear; a number presented with IE set. -/
theorem witness_StepRunsDecodedInstruction :
    let s := code [0x4A] base
    decode (Memory.windowAt s.mem (s.get .ip)) = .add .r1 .r2 ∧ (Instr.add .r1 .r2).WellFormed ∧
    s.presented = none ∧ ((s.setFlags 7).setIrqs [some 7]).flags.getLsbD 3 = false ∧
    (s.setIrqs [some 0]).presented = some 0 ∧ s.flags.getLsbD 3 = true := by decide

theorem witness_PresentedNumberIgnoredWhenDisabled :
    (base.setFlags 0xFFF7).flags.getLsbD 3 = false ∧ State.reset.flags.getLsbD 3 = false ∧
    (∃ t, stepWith (some 7) State.reset = .next t) := ⟨by decide, by decide, _, rfl⟩

theorem witness_StepReadsOnePresentation :
    ∃ t, outcomeOf (step ((code [0x90] base).setIrqs [none, some 7])) = some (.cont, t) ∧
      t.irqs = [some 7] := ⟨_, rfl, by decide⟩

/-- A store at the top of memory, from a state that meets the invariant. -/
theorem witness_EveryStepKeepsMemoryCanonical :
    MemoryCanonical (code [0x41, 0x02] ((base.set .r1 0xAB).set .r2 0xFFFF)) ∧
    ∃ t, outcomeOf (step (code [0x41, 0x02] ((base.set .r1 0xAB).set .r2 0xFFFF))) = some (.cont, t) ∧
      t.mem.getLast? = some (0xFFFF, 0xAB) :=
  ⟨(by decide : Memory.wf _ = true), _, rfl, by decide⟩

/-- The least and the greatest bytes of both illegal encodings. -/
theorem witness_IllegalEncodingsStop :
    decode ⟨0xC1, 0, 0, 0⟩ = .illegalM .r1 ∧ decode ⟨0xC7, 0xFF, 0xFF, 0xFF⟩ = .illegalM .sp ∧
    ((0x48 : Byte).toNat / 64 = 1 ∧ (0x48 : Byte).toNat / 8 % 8 ≠ 0 ∧ (0x48 : Byte).toNat % 8 = 0 ∧
      (0x28 : Byte).getLsbD 5 = true ∧ 7 < (0x28 : Byte).toNat % 32) ∧
    decode ⟨0x48, 0x28, 0, 0⟩ = .illegalShift .r1 false false 8 ∧
    decode ⟨0x78, 0xFF, 0, 0⟩ = .illegalShift .sp true true 31 := by decide

/-- The least and the greatest byte of each range, and their neighbours that are legal. -/
theorem witness_StepIsIllegalExactlyOnTwoEncodings :
    (after none (code [0xC1] base) (fun _ => ())).map (·.1) = some .illegal ∧
    (after none (code [0xC7] base) (fun _ => ())).map (·.1) = some .illegal ∧
    (after none (code [0xC0] base) (fun _ => ())).map (·.1) = some .cont ∧
    (after none (code [0xC8] base) (fun _ => ())).map (·.1) = some .cont ∧
    (after none (code [0x48, 0x28] base) (fun _ => ())).map (·.1) = some .illegal ∧
    (after none (code [0x78, 0xFF] base) (fun _ => ())).map (·.1) = some .illegal ∧
    (after none (code [0x48, 0x27] base) (fun _ => ())).map (·.1) = some .cont ∧
    (after none (code [0x78, 0x1F] base) (fun _ => ())).map (·.1) = some .cont := by decide

/-- Each cause, at the least and the greatest odd address. -/
theorem witness_UnalignedHasTheseCauses :
    (∃ l, exec .ret (base.set .sp 1) = .fault (.unaligned l)) ∧
    (∃ l, exec (.call 0) (base.set .sp 0xFFFF) = .fault (.unaligned l)) ∧
    (∃ l, exec (.ld .r1 ⟨.none, .word, false, false, .r2⟩) (base.set .r2 1) = .fault (.unaligned l)) ∧
    (∃ l, exec (.st .r1 ⟨.none, .word, false, false, .r2⟩) (base.set .r2 0xFFFF)
      = .fault (.unaligned l)) := ⟨⟨_, rfl⟩, ⟨_, rfl⟩, ⟨_, rfl⟩, ⟨_, rfl⟩⟩

theorem witness_FaultLeavesMemoryAndFlags :
    (∃ f, stepWith none (code [0x01, 0x3A] (base.set .r2 1)) = .fault f ∧
      decode (code [0x01, 0x3A] (base.set .r2 1)).window = .ld .r1 ⟨.none, .word, true, true, .r2⟩) ∧
    (∃ f, stepWith (some 7) (base.set .sp 0xFFFF) = .fault f) := ⟨⟨_, rfl, by decide⟩, ⟨_, rfl⟩⟩

theorem witness_OddAddressByteVersusWord :
    (resolveOperand ⟨.none, .byte, false, false, .r2⟩ (base.set .r2 0xFFFF)).1.toNat % 2 = 1 ∧
    (resolveOperand ⟨.none, .word, false, false, .r2⟩ (base.set .r2 0xFFFF)).1.toNat % 2 = 1 ∧
    (resolveOperand ⟨.bp, .word, true, true, .bp⟩ (base.set .bp 0x8001)).1.toNat % 2 = 0 := by decide

/-- Index registers other than IP, and IP; the expected addresses are those of R117, R114 and R113. -/
theorem witness_Resolver :
    (Reg.sp ≠ .ip ∧ (resolve ⟨.sp, .word, false, true, .sp⟩ base).1 = 0xFFDC) ∧
    (Reg.r1 ≠ .ip ∧ (resolve ⟨.none, .word, false, true, .r1⟩ base).1 = 0xFFFE) ∧
    ((⟨.imm 0x2000, .byte, true, false, .ip⟩ : Mem).n = .ip ∧
      (resolve ⟨.imm 0x2000, .byte, true, false, .ip⟩ (base.set .ip 0xFFFE)).1 = 0x2000) := by decide

/-- A byte load at 0xFFFF, an aligned word load at 0xFFFE, a misaligned one at 0xFFFF. -/
theorem witness_LoadResult :
    Reg.sp ≠ .ip ∧
    (resolveOperand ⟨.none, .byte, false, false, .r2⟩ (base.set .r2 0xFFFF)).1 = 0xFFFF ∧
    (∃ t, exec (.ld .sp ⟨.none, .byte, false, false, .r2⟩) (base.set .r2 0xFFFF) = .next t) ∧
    (resolveOperand ⟨.none, .word, false, true, .r2⟩ base).1.toNat % 2 = 0 ∧
    (∃ t, exec (.ld .r2 ⟨.none, .word, false, true, .r2⟩) base = .next t) ∧
    (resolveOperand ⟨.none, .word, false, false, .r2⟩ (base.set .r2 0xFFFF)).1.toNat % 2 = 1 :=
  ⟨by decide, by decide, ⟨_, rfl⟩, by decide, ⟨_, rfl⟩, by decide⟩

theorem witness_StoreResult :
    (resolveOperand ⟨.sp, .byte, true, false, .r2⟩ (base.set .r2 0x000F)).1 = 0xFFFF ∧
    (∃ t, exec (.st .r2 ⟨.sp, .byte, true, false, .r2⟩) (base.set .r2 0x000F) = .next t) ∧
    (resolveOperand ⟨.none, .word, false, true, .r2⟩ base).1.toNat % 2 = 0 ∧
    (∃ t, exec (.st .r2 ⟨.none, .word, false, true, .r2⟩) base = .next t) ∧
    (resolveOperand ⟨.none, .word, false, false, .r2⟩ (base.set .r2 1)).1.toNat % 2 = 1 :=
  ⟨by decide, ⟨_, rfl⟩, by decide, ⟨_, rfl⟩, by decide⟩

theorem witness_LoadEffectiveAddressResult :
    Reg.r1 ≠ .ip ∧ ∃ t, exec (.lea .r1 ⟨.none, .word, true, true, .r1⟩) (base.set .r1 1) = .next t ∧
      t.get .r1 = 0xFFFF := ⟨by decide, _, rfl, by decide⟩

theorem witness_FetchSeesStoredByte :
    ∃ t, exec (.st .r1 ⟨.imm 0x0100, .byte, false, false, .r2⟩) (base.set .r1 0x00C1) = .next t ∧
      decode (Memory.windowAt t.mem 0x0100) = .illegalM .r1 := ⟨_, rfl, by decide⟩

/-- The register operands LDI, MOV, ADD, AND, XOR, NOT and NEG admit, at both ends of their range. -/
theorem witness_AluResults :
    (Reg.r1 ≠ .ip ∧ Reg.sp ≠ .ip) ∧
    (∃ t, exec (.ldi .sp 0) base = .next t) ∧ (∃ t, exec (.mov .sp .r1) base = .next t) ∧
    (∃ t, exec (.add .r1 .r1) base = .next t) ∧ (∃ t, exec (.and .r1 .sp) base = .next t) ∧
    (∃ t, exec (.xor .sp .sp) base = .next t) ∧ (∃ t, exec (.not .sp) base = .next t) ∧
    (∃ t, exec (.neg .r1) base = .next t) :=
  ⟨by decide, ⟨_, rfl⟩, ⟨_, rfl⟩, ⟨_, rfl⟩, ⟨_, rfl⟩, ⟨_, rfl⟩, ⟨_, rfl⟩, ⟨_, rfl⟩⟩

/-- Counts 0, 15, 16 and 31, and count registers IP and SP. -/
theorem witness_ShiftResults :
    Reg.r1 ≠ .ip ∧
    amountOf (.reg .ip) (base.set .ip 0x001D) = 31 ∧ amountOf (.reg .sp) base = 16 ∧
    (∃ t, exec (.shl .r1 false (.imm 15)) (base.set .r1 1) = .next t ∧ t.get .r1 = 0x8000) ∧
    (∃ t, exec (.shr .r1 (.imm 0)) (base.set .r1 0x8001) = .next t ∧ t.get .r1 = 0x8001) ∧
    (∃ t, exec (.shr .r1 (.reg .sp)) (base.set .r1 0xFFFF) = .next t ∧ t.get .r1 = 0) ∧
    (∃ t, exec (.sar .r1 (.reg .ip)) ((base.set .r1 0x8000).set .ip 0x001D) = .next t ∧
      t.get .r1 = 0xFFFF) :=
  ⟨by decide, by decide, by decide, ⟨_, rfl, by decide⟩, ⟨_, rfl, by decide⟩, ⟨_, rfl, by decide⟩,
    ⟨_, rfl, by decide⟩⟩

/-- Each masked flag alone, and none; the least and the greatest displacement, past both ends. -/
theorem witness_ConditionalJumpResult :
    (∃ t, exec (.jcc 0b100 0b10000) ((base.set .ip 0).setFlags 4) = .next t ∧ t.get .ip = 0xFFF2) ∧
    (∃ t, exec (.jcc 0b010 0b01111) ((base.set .ip 0xFFFF).setFlags 2) = .next t ∧ t.get .ip = 0x0010) ∧
    (∃ t, exec (.jcc 0b001 0) (base.setFlags 1) = .next t ∧ t.get .ip = 0x0102) ∧
    (∃ t, exec (.jcc 0b101 0b01111) (base.setFlags 2) = .next t ∧ t.get .ip = 0x0102) :=
  ⟨⟨_, rfl, by decide⟩, ⟨_, rfl, by decide⟩, ⟨_, rfl, by decide⟩, ⟨_, rfl, by decide⟩⟩

/-- SP even at 0 and at 0xFFFE, SP odd at 1 and at 0xFFFF; IE set and clear. -/
theorem witness_CallAndReturnResults :
    (StackAligned (base.set .sp 0) ∧ StackAligned (base.set .sp 0xFFFE)) ∧
    (¬ StackAligned (base.set .sp 1) ∧ ¬ StackAligned (base.set .sp 0xFFFF)) ∧
    (∃ t, exec (.call 1) (base.set .sp 0) = .next t ∧ t.get .sp = 0xFFFE) ∧
    (∃ t, exec .ret (base.set .sp 0xFFFE) = .next t ∧ t.get .sp = 0) ∧
    base.flags.getLsbD 3 = true ∧ State.reset.flags.getLsbD 3 = false := by
  unfold StackAligned
  exact ⟨by decide, by decide, ⟨_, rfl, by decide⟩, ⟨_, rfl, by decide⟩, by decide, by decide⟩

theorem witness_CallThenReturnRoundTrip :
    ∃ u, exec (.call 0x2000) base = .next u ∧ (u.set .r1 5).get .sp = u.get .sp ∧
      Memory.readWord (u.set .r1 5).mem (u.get .sp) = Memory.readWord u.mem (u.get .sp) ∧
      Flags.ie (u.set .r1 5).flags = true ∧ Flags.ie ((u.set .r1 5).setFlags 7).flags = false :=
  ⟨_, rfl, by decide, by decide, by decide, by decide⟩

/-- SP = 0, which the SP-zero rule moves, and SP = 2, whose frame wraps to address 0. -/
theorem witness_InterruptEntryResult :
    Flags.ie base.flags = true ∧ StackAligned (base.set .sp 0) ∧ StackAligned (base.set .sp 2) ∧
    (∃ t, stepWith (some 0) (base.set .sp 0) = .next t ∧ t.get .sp = 0xFFEC) ∧
    (∃ t, stepWith (some 7) (base.set .sp 2) = .next t ∧ t.get .sp = 0xFFFE) := by
  unfold StackAligned
  exact ⟨by decide, by decide, by decide, ⟨_, rfl, by decide⟩, ⟨_, rfl, by decide⟩⟩

theorem witness_InterruptEntryWithOddStack :
    Flags.ie base.flags = true ∧ ¬ StackAligned (base.set .sp 1) ∧ ¬ StackAligned (base.set .sp 0xFFFF) := by
  unfold StackAligned; decide

/-- A handler that has changed a register and its result flags. -/
theorem witness_InterruptThenReturnRestores :
    ∃ e, base.interruptEntry 7 = .next e ∧ Flags.ie ((e.set .r1 5).setFlags 4).flags = false ∧
      ((e.set .r1 5).setFlags 4).get .sp = e.get .sp ∧
      ∀ a ∈ [base.get .sp - 4#16, base.get .sp - 3#16, base.get .sp - 2#16, base.get .sp - 1#16],
        Memory.readByte ((e.set .r1 5).setFlags 4).mem a = Memory.readByte e.mem a :=
  ⟨_, rfl, by decide, by decide, fun _ _ => rfl⟩

theorem witness_NoInterruptAfterEntry : ∃ t, base.interruptEntry 0 = .next t ∧ Flags.ie t.flags = false :=
  ⟨_, rfl, by decide⟩

/-- An instruction other than RET, and RET with IE set. -/
theorem witness_UpperFlagsChangeOnlyThroughReturn :
    (∃ t, exec (.mov .r1 .r2) (base.setFlags 0xFFFF) = .next t ∧ t.flags = 0xFFFA) ∧
    (∃ t, exec .ret (base.setFlags 0xFFFF) = .next t ∧ Flags.ie (base.setFlags 0xFFFF).flags = true) :=
  ⟨⟨_, rfl, by decide⟩, ⟨_, rfl, by decide⟩⟩

theorem witness_OnlyStoreAndCallWriteMemory :
    (∃ t, exec .ret base = .next t) ∧ (∀ d m, Instr.ret ≠ .st d m) ∧ (∀ a, Instr.ret ≠ .call a) :=
  ⟨⟨_, rfl⟩, by simp, by simp⟩

/-- A four-byte instruction, and one whose index register is IP. -/
theorem witness_IpAdvancesByLength :
    (∃ t, exec (.lea .r1 ⟨.imm 1, .word, false, false, .r2⟩) (base.set .ip 0xFFFE) = .next t ∧
      t.get .ip = 2 ∧ (Instr.lea .r1 ⟨.imm 1, .word, false, false, .r2⟩).WellFormed) ∧
    (∃ t, exec (.lea .r1 ⟨.none, .word, true, false, .ip⟩) base = .next t ∧ t.get .ip = 0x0104 ∧
      ipAdjust (.lea .r1 ⟨.none, .word, true, false, .ip⟩) = 2) :=
  ⟨⟨_, rfl, by decide, by decide⟩, ⟨_, rfl, by decide, by decide⟩⟩

theorem witness_DecodeOfEncode : (Instr.st .sp ⟨.imm 0xFFFF, .word, true, true, .ip⟩).WellFormed ∧
    (Instr.illegalShift .sp true true 31).WellFormed ∧ Instr.ret.WellFormed := by decide

end Sys2Proof.Tests
end

section
/-! The SP-zero rule as the first thing a step does (R22, R91). -/

namespace Sys2Proof.Machine

theorem State.spZeroRule_of_eq {s : State} (h : s.get .sp = 0#16) :
    s.spZeroRule = s.set .sp Config.spDefault := by
  simp [State.spZeroRule, h]

theorem State.get_sp_spZeroRule_ne_zero (s : State) : s.spZeroRule.get .sp ≠ 0#16 := by
  rw [State.get_spZeroRule]
  split
  · decide
  · next h => exact fun h0 => h ⟨rfl, h0⟩

@[simp] theorem State.spZeroRule_spZeroRule (s : State) : s.spZeroRule.spZeroRule = s.spZeroRule :=
  State.spZeroRule_of_ne s.get_sp_spZeroRule_ne_zero

/-- A step begins with the SP-zero rule, so applying the rule beforehand makes no difference. -/
theorem stepWith_spZeroRule (irq : Option IrqNum) (s : State) :
    stepWith irq s.spZeroRule = stepWith irq s := by
  simp only [stepWith, State.spZeroRule_spZeroRule]

/-- Settles O2. With SP = 0 the named state is what the rule makes of `s`; with SP not 0 the rule
changes nothing, and the step is the case split on the interrupt check. -/
theorem spZeroRuleRunsFirst : Obligations.SpZeroRuleRunsFirst := by
  intro irq s
  refine ⟨fun hsp => ?_, fun hsp => ?_⟩
  · calc stepWith irq s
        = stepWith irq s.spZeroRule := (stepWith_spZeroRule irq s).symm
      _ = stepWith irq (s.set .sp Config.spDefault) := by rw [State.spZeroRule_of_eq hsp]
  · have hrule : s.spZeroRule = s := State.spZeroRule_of_ne hsp
    cases irq with
    | none =>
      have hacc : s.accepts none = none := by simp [State.accepts]
      rw [stepWith_of_not_accepted hacc, hrule, State.window]
    | some k =>
      dsimp only
      split
      · next hie =>
        have hacc : s.accepts (some k) = some k := if_pos hie
        rw [stepWith_of_accepted hacc, hrule]
      · next hie =>
        have hacc : s.accepts (some k) = none := if_neg hie
        rw [stepWith_of_not_accepted hacc, hrule, State.window]

end Sys2Proof.Machine
end

section
/-! The byte and raw word primitives at addresses taken modulo 65536 (R41 to R43). -/

namespace Sys2Proof.Machine

theorem toNat_loByte (v : Word) : (loByte v).toNat = v.toNat % 256 := by
  simp [loByte]

theorem toNat_hiByte (v : Word) : (hiByte v).toNat = v.toNat / 256 := by
  have hv : v.toNat / 256 < 256 := by omega
  simp [hiByte, Nat.shiftRight_eq_div_pow, Nat.mod_eq_of_lt hv]

/-- Two integers name the same address exactly when they agree modulo 65536. -/
theorem address_ofInt_eq_iff (a b : Int) :
    BitVec.ofInt 16 b = BitVec.ofInt 16 a ↔ b % 65536 = a % 65536 := by
  rw [← BitVec.toNat_inj, BitVec.toNat_ofInt, BitVec.toNat_ofInt]
  omega

/-- The address after `a`, with the wrap at 0xFFFF written out. -/
theorem address_succ_eq_ofNat (a : Word) : a + 1#16 = BitVec.ofNat 16 ((a.toNat + 1) % 65536) := by
  bv_omega

theorem eq_address_succ_iff (a b : Word) : b = a + 1#16 ↔ b.toNat = (a.toNat + 1) % 65536 := by
  bv_omega

theorem address_ne_succ (a : Word) : a ≠ a + 1#16 := by
  bv_omega

/-- Settles O16. Read after write at addresses given as integers: the two addresses are equal
exactly when the integers agree modulo 65536. -/
theorem byteWriteSetsOneByte : Obligations.ByteWriteSetsOneByte := by
  intro m a b v
  rw [Memory.readByte_writeByte, apply_ite BitVec.toNat, toNat_loByte]
  simp only [address_ofInt_eq_iff]

/-- Settles O17. The address of the high byte is the wrapped successor. -/
theorem rawWordReadIsLittleEndian : Obligations.RawWordReadIsLittleEndian := by
  intro m a
  rw [Memory.readWord, toNat_wordOfBytes, address_succ_eq_ofNat]

/-- Settles O18. The model writes the high byte last; as `a` is never its own successor, the order of
the two writes does not show. -/
theorem rawWordWriteIsLittleEndian : Obligations.RawWordWriteIsLittleEndian := by
  intro m a v b
  rw [Memory.readByte_writeWord]
  by_cases hlo : b = a
  · subst hlo
    rw [if_neg (address_ne_succ b), if_pos rfl, if_pos rfl, toNat_loByte]
  · rw [if_neg hlo, if_neg hlo, apply_ite BitVec.toNat, toNat_hiByte]
    simp only [eq_address_succ_iff]

end Sys2Proof.Machine
end

section
/-! The memory family's loads and stores: what LD and ST answer by operand size and alignment, and
what they leave unchanged (R120, R121, R116). -/

namespace Sys2Proof.Machine

open Sys2Proof.Safety

/-! ### Aligned accesses (R44) -/

theorem Memory.alignedRead_of_even (m : Memory) {a : Word} (h : a.toNat % 2 = 0) :
    Memory.alignedRead m a = some (Memory.readWord m a) := by
  simp [Memory.alignedRead, (odd_eq_false_iff a).mpr h]

theorem Memory.alignedRead_of_odd (m : Memory) {a : Word} (h : a.toNat % 2 = 1) :
    Memory.alignedRead m a = none := by
  simp [Memory.alignedRead, (odd_iff a).mpr h]

theorem Memory.alignedWrite_of_even (m : Memory) {a : Word} (v : Word) (h : a.toNat % 2 = 0) :
    Memory.alignedWrite m a v = some (Memory.writeWord m a v) := by
  simp [Memory.alignedWrite, (odd_eq_false_iff a).mpr h]

theorem Memory.alignedWrite_of_odd (m : Memory) {a : Word} (v : Word) (h : a.toNat % 2 = 1) :
    Memory.alignedWrite m a v = none := by
  simp [Memory.alignedWrite, (odd_iff a).mpr h]

theorem toNat_zeroExtend (b : Byte) : (zeroExtend b).toNat = b.toNat :=
  BitVec.toNat_setWidth_of_le (by decide)

/-! ### What LD and ST answer -/

theorem exec_ld_byte (d : Reg) {m : Mem} (s : State) (hsz : m.size = .byte) :
    exec (.ld d m) s = .next ((resolveOperand m s).2.set d
      (zeroExtend (Memory.readByte s.mem (resolveOperand m s).1))) := by
  simp [exec, execLd, hsz]

theorem exec_ld_word_of_even (d : Reg) {m : Mem} {s : State} (hsz : m.size = .word)
    (hea : (resolveOperand m s).1.toNat % 2 = 0) :
    exec (.ld d m) s = .next ((resolveOperand m s).2.set d
      (Memory.readWord s.mem (resolveOperand m s).1)) := by
  simp [exec, execLd, hsz, Memory.alignedRead_of_even _ hea]

theorem exec_ld_word_of_odd (d : Reg) {m : Mem} {s : State} (hsz : m.size = .word)
    (hea : (resolveOperand m s).1.toNat % 2 = 1) :
    exec (.ld d m) s = .fault (.unaligned (resolveOperand m s).2) := by
  simp [exec, execLd, hsz, Memory.alignedRead_of_odd _ hea]

theorem exec_st_byte (d : Reg) {m : Mem} (s : State) (hsz : m.size = .byte) :
    exec (.st d m) s = .next ((resolveOperand m s).2.setMem
      (Memory.writeByte s.mem (resolveOperand m s).1 (loByte ((resolveOperand m s).2.get d)))) := by
  simp [exec, execSt, hsz]

theorem exec_st_word_of_even (d : Reg) {m : Mem} {s : State} (hsz : m.size = .word)
    (hea : (resolveOperand m s).1.toNat % 2 = 0) :
    exec (.st d m) s = .next ((resolveOperand m s).2.setMem
      (Memory.writeWord s.mem (resolveOperand m s).1 ((resolveOperand m s).2.get d))) := by
  simp [exec, execSt, hsz, Memory.alignedWrite_of_even _ _ hea]

theorem exec_st_word_of_odd (d : Reg) {m : Mem} {s : State} (hsz : m.size = .word)
    (hea : (resolveOperand m s).1.toNat % 2 = 1) :
    exec (.st d m) s = .fault (.unaligned (resolveOperand m s).2) := by
  simp [exec, execSt, hsz, Memory.alignedWrite_of_odd _ _ hea]

/-! ### Frames -/

theorem sameRegsBut_set (s : State) (d : Reg) (v : Word) : SameRegsBut [d] s (s.set d v) := by
  intro r hr
  rw [State.get_set, if_neg (List.mem_singleton.not.mp hr)]

/-- Two changes of state one after the other change the registers that either of them changes. -/
theorem sameRegsBut_append {as bs : List Reg} {s t u : State} (hst : SameRegsBut as s t)
    (htu : SameRegsBut bs t u) : SameRegsBut (bs ++ as) s u := by
  intro r hr
  rw [List.mem_append, not_or] at hr
  exact (htu r hr.1).trans (hst r hr.2)

theorem sameMemoryBut_writeByte {s t : State} {a : Word} {v : Byte}
    (h : t.mem = Memory.writeByte s.mem a v) : SameMemoryBut [a] s t := by
  intro b hb
  rw [h, Memory.readByte_writeByte, if_neg (List.mem_singleton.not.mp hb)]

theorem sameMemoryBut_writeWord {s t : State} {a v : Word}
    (h : t.mem = Memory.writeWord s.mem a v) : SameMemoryBut [a, a + 1#16] s t := by
  intro b hb
  obtain ⟨hlo, hhi⟩ : b ≠ a ∧ b ≠ a + 1#16 := by simpa using hb
  rw [h, Memory.readByte_writeWord, if_neg hhi, if_neg hlo]

/-- What a register write after the resolver leaves unchanged: the end of LD and of LEA. -/
theorem resolveOperand_set_frame (d : Reg) (m : Mem) (s : State) (v : Word) :
    SameRegsBut [d] (resolveOperand m s).2 ((resolveOperand m s).2.set d v) ∧
    SameRegsBut [d, m.n, .ip] s ((resolveOperand m s).2.set d v) ∧
    ((resolveOperand m s).2.set d v).flags = s.flags ∧
    SameMemory s ((resolveOperand m s).2.set d v) ∧
    ((resolveOperand m s).2.set d v).irqs = s.irqs := by
  have hset := sameRegsBut_set (resolveOperand m s).2 d v
  exact ⟨hset, sameRegsBut_append (sameRegs_resolveOperand m s) hset, by simp,
    fun _ => by simp, by simp⟩

/-- What a memory write after the resolver leaves unchanged outside memory: the end of ST. -/
theorem resolveOperand_setMem_frame (m : Mem) (s : State) (mem : Memory) :
    SameRegsBut [] (resolveOperand m s).2 ((resolveOperand m s).2.setMem mem) ∧
    SameRegsBut [m.n, .ip] s ((resolveOperand m s).2.setMem mem) ∧
    ((resolveOperand m s).2.setMem mem).flags = s.flags ∧
    ((resolveOperand m s).2.setMem mem).irqs = s.irqs :=
  ⟨fun _ _ => State.get_setMem .., sameRegs_resolveOperand m s, by simp, by simp⟩

/-- Settles O21. LD is the resolver followed by one register write; only an odd effective address of
a word load stops before that write. -/
theorem loadResult : Obligations.LoadResult := by
  intro d m s _
  refine ⟨fun hsz => ?byte, fun hsz hea => ?aligned, fun hsz hea => exec_ld_word_of_odd d hsz hea⟩
  case byte =>
    refine ⟨_, exec_ld_byte d s hsz, ?_, resolveOperand_set_frame d m s _⟩
    rw [State.get_set, if_pos rfl, toNat_zeroExtend]
  case aligned =>
    refine ⟨_, exec_ld_word_of_even d hsz hea, ?_, resolveOperand_set_frame d m s _⟩
    rw [State.get_set, if_pos rfl]

/-- Settles O22. ST is the resolver followed by one memory write of the data register as the resolver
left it; only an odd effective address of a word store stops before that write. -/
theorem storeResult : Obligations.StoreResult := by
  intro d m s
  refine ⟨fun hsz => ?byte, fun hsz hea => ?aligned, fun hsz hea => exec_st_word_of_odd d hsz hea⟩
  case byte =>
    refine ⟨_, exec_st_byte d s hsz, ?_, sameMemoryBut_writeByte rfl,
      resolveOperand_setMem_frame m s _⟩
    rw [State.mem_setMem, Memory.readByte_writeByte, if_pos rfl, toNat_loByte]
  case aligned =>
    refine ⟨_, exec_st_word_of_even d hsz hea, ?_, ?_, sameMemoryBut_writeWord rfl,
      resolveOperand_setMem_frame m s _⟩
    · rw [State.mem_setMem, Memory.readByte_writeWord, if_neg (address_ne_succ _), if_pos rfl,
        toNat_loByte]
    · rw [State.mem_setMem, Memory.readByte_writeWord, if_pos rfl, toNat_hiByte]

end Sys2Proof.Machine
end

section
/-! The illegal encodings as numbers of their bytes, and a byte against a word access at one odd
address (R123, R124, R146). -/

namespace Sys2Proof

/-! ### The fields of the opcode byte as numbers (R61) -/

theorem Op.ofBits_eq_iff (b : BitVec 2) (o : Op) : Op.ofBits b = o ↔ b.toNat = o.bits.toNat := by
  cases o <;> revert b <;> decide

theorem Reg.ofBits_eq_ip_iff (b : BitVec 3) : Reg.ofBits b = .ip ↔ b.toNat = 0 := by
  revert b; decide

theorem op_field_eq_iff (b : Byte) (o : Op) :
    Op.ofBits (b.extractLsb' 6 2) = o ↔ b.toNat / 64 = o.bits.toNat := by
  have hb : b.toNat / 64 % 4 = b.toNat / 64 := by omega
  rw [Op.ofBits_eq_iff, BitVec.extractLsb'_toNat, Nat.shiftRight_eq_div_pow]
  norm_num [hb]

theorem d_field_eq_ip_iff (b : Byte) :
    Reg.ofBits (b.extractLsb' 3 3) = .ip ↔ b.toNat / 8 % 8 = 0 := by
  rw [Reg.ofBits_eq_ip_iff, BitVec.extractLsb'_toNat, Nat.shiftRight_eq_div_pow]

theorem s_field_eq_ip_iff (b : Byte) : Reg.ofBits (b.extractLsb' 0 3) = .ip ↔ b.toNat % 8 = 0 := by
  rw [Reg.ofBits_eq_ip_iff, BitVec.extractLsb'_toNat, Nat.shiftRight_zero]

/-! ### The two rows of the decoder that can be illegal -/

/-- First bytes 0xC1 to 0xC7 are the reserved memory op 3 (R69, R123). -/
theorem decode_eq_illegalM {w : Window} (hlo : 0xC1 ≤ w.b0.toNat) (hhi : w.b0.toNat ≤ 0xC7) :
    decode w = .illegalM (Reg.ofBits (w.b0.extractLsb' 0 3)) := by
  have hop : Op.ofBits (w.b0.extractLsb' 6 2) = .op3 :=
    (op_field_eq_iff _ _).mpr (show w.b0.toNat / 64 = 3 by omega)
  have hd : Reg.ofBits (w.b0.extractLsb' 3 3) = .ip := (d_field_eq_ip_iff _).mpr (by omega)
  have hs : Reg.ofBits (w.b0.extractLsb' 0 3) ≠ .ip := (s_field_eq_ip_iff _).not.mpr (by omega)
  simp only [decode, hop, if_pos hd, if_neg hs]

/-- A first byte with `op` = 1, `d` not 0 and `s` = 0 is a shift, whatever its control byte (R69,
R142). -/
theorem decode_eq_decodeShift {w : Window} (hop : w.b0.toNat / 64 = 1)
    (hd : w.b0.toNat / 8 % 8 ≠ 0) (hs : w.b0.toNat % 8 = 0) :
    decode w = decodeShift (Reg.ofBits (w.b0.extractLsb' 3 3)) w.b1 := by
  have hop' : Op.ofBits (w.b0.extractLsb' 6 2) = .op1 := (op_field_eq_iff _ _).mpr hop
  have hd' : Reg.ofBits (w.b0.extractLsb' 3 3) ≠ .ip := (d_field_eq_ip_iff _).not.mpr hd
  have hs' : Reg.ofBits (w.b0.extractLsb' 0 3) = .ip := (s_field_eq_ip_iff _).mpr hs
  simp only [decode, hop', if_neg hd', if_pos hs']

/-- A shift whose control byte has no count is the illegal one (R73, R146). -/
theorem decodeShift_of_decodeCount_none {ctrl : Byte} (d : Reg) (h : decodeCount ctrl = none) :
    decodeShift d ctrl =
      .illegalShift d (ctrl.getLsbD 7) (ctrl.getLsbD 6) (ctrl.extractLsb' 0 5) := by
  simp only [decodeShift, h]

/-- The register-count bit `rc` of a shift control byte as a number (R64). -/
theorem rc_bit_iff (ctrl : Byte) : ctrl.getLsbD 5 = true ↔ ctrl.toNat / 32 % 2 = 1 := by
  simp [BitVec.getLsbD, Nat.testBit_eq_decide_div_mod_eq]

end Sys2Proof

namespace Sys2Proof.Machine

open Sys2Proof.Safety

/-! ### The obligations -/

theorem sameMemory_resolveOperand (m : Mem) (s : State) : SameMemory s (resolveOperand m s).2 :=
  fun _ => by rw [mem_resolveOperand]

/-- Settles O15. The byte forms have no alignment test; the word forms stop in the state of the
resolver, which writes no memory. -/
theorem oddAddressByteVersusWord : Obligations.OddAddressByteVersusWord := by
  intro d m s hea
  have hmem := sameMemory_resolveOperand m s
  refine ⟨fun hsz => ⟨?ldByte, ?stByte⟩, fun hsz => ⟨?ldWord, ?stWord⟩⟩
  case ldByte => exact ⟨_, exec_ld_byte d s hsz⟩
  case stByte => exact ⟨_, exec_st_byte d s hsz⟩
  case ldWord => exact ⟨_, exec_ld_word_of_odd d hsz hea, hmem, fun _ => rfl⟩
  case stWord => exact ⟨_, exec_st_word_of_odd d hsz hea, hmem, fun _ => rfl⟩

/-- Settles O11. Both meanings are the fault with the bytes read consumed; the encodings follow from
the fields of the first byte and, for a shift, from its control byte having no count. -/
theorem illegalEncodingsStop : Obligations.IllegalEncodingsStop := by
  refine ⟨fun _ _ => rfl, fun _ _ _ _ _ => rfl, fun w hlo hhi => ⟨_, decode_eq_illegalM hlo hhi⟩,
    fun w hop hd hs hrc hcnt => ?_⟩
  have hnone : decodeCount w.b1 = none :=
    (decodeCount_eq_none_iff w.b1).mpr ⟨(rc_bit_iff w.b1).mp hrc, hcnt⟩
  exact ⟨_, _, _, _,
    (decode_eq_decodeShift hop hd hs).trans (decodeShift_of_decodeCount_none _ hnone)⟩

end Sys2Proof.Machine
end

section
/-! The control-flow family's jumps: JMP and JCC write IP and nothing else (R172, R173). -/

namespace Sys2Proof

/-! ### The encodings (R69) -/

/-- The opcode byte 0x40 is JCC, its control byte `mmmddddd` (R65). -/
theorem decode_eq_jcc (ctrl b2 b3 : Byte) :
    decode ⟨0x40#8, ctrl, b2, b3⟩ = .jcc (ctrl.extractLsb' 5 3) (ctrl.extractLsb' 0 5) := by
  have hop : 0x40#8 = opcodeByte .op1 .ip .ip := rfl
  simp only [decode, hop, opcodeByte_op, opcodeByte_d, opcodeByte_s, if_true]

/-- The opcode byte 0x80 is JMP to the word after it. -/
theorem decode_eq_jmp (lo hi b3 : Byte) :
    decode ⟨0x80#8, lo, hi, b3⟩ = .jmp (wordOfBytes lo hi) := by
  have hop : 0x80#8 = opcodeByte .op2 .ip .ip := rfl
  simp only [decode, hop, opcodeByte_op, opcodeByte_d, opcodeByte_s, if_true]

end Sys2Proof

namespace Sys2Proof.Machine

open Sys2Proof.Safety

/-! ### A state in which only IP has changed -/

/-- Consumed bytes do not show once IP is written. -/
theorem State.consume_set_ip (s : State) (k v : Word) :
    (s.consume k).set .ip v = s.set .ip v := by
  simp [State.consume, State.set]

theorem set_ip_frame (s : State) (v : Word) :
    SameRegsBut [.ip] s (s.set .ip v) ∧ (s.set .ip v).flags = s.flags ∧
      SameMemory s (s.set .ip v) ∧ (s.set .ip v).irqs = s.irqs :=
  ⟨sameRegsBut_set s .ip v, s.flags_set .ip v, fun _ => by rw [State.mem_set], s.irqs_set .ip v⟩

/-! ### The condition and the target of JCC (R172) -/

theorem and_ne_zero_iff_getLsbD (a b : BitVec 3) :
    a &&& b ≠ 0#3 ↔ (a.getLsbD 2 = true ∧ b.getLsbD 2 = true) ∨
      (a.getLsbD 1 = true ∧ b.getLsbD 1 = true) ∨ (a.getLsbD 0 = true ∧ b.getLsbD 0 = true) := by
  revert a b; decide

/-- A JCC is taken when one of the flags its mask names is set. -/
theorem Flags.taken_iff (mask : BitVec 3) (f : Word) :
    Flags.taken mask f = true ↔ (mask.getLsbD 2 = true ∧ Flags.negative f = true) ∨
      (mask.getLsbD 1 = true ∧ Flags.zero f = true) ∨
      (mask.getLsbD 0 = true ∧ Flags.positive f = true) := by
  rw [Flags.taken, bne_iff_ne, and_ne_zero_iff_getLsbD]
  simp [Flags.nzp, Flags.negative, Flags.zero, Flags.positive]

theorem address_add_two_eq_ofInt (a : Word) : a + 2#16 = BitVec.ofInt 16 (a.toNat + 2) := by
  rw [BitVec.ofInt_add, BitVec.ofInt_natCast, BitVec.ofNat_toNat, BitVec.setWidth_eq]
  rfl

/-- Adding the sign-extended displacement to an address given as an integer is the sum of the
integers, modulo 65536. -/
theorem ofInt_add_displacement (n : Int) (disp : BitVec 5) :
    BitVec.ofInt 16 n + displacement disp = BitVec.ofInt 16 (n + disp.toInt) := by
  rw [BitVec.ofInt_add, displacement, BitVec.signExtend]

/-! ### What JMP and JCC answer -/

theorem exec_jmp (target : Word) (s : State) :
    exec (.jmp target) s = .next (s.set .ip target) := by
  rw [exec, execJmp, State.consume_set_ip]

theorem exec_jcc_of_taken {mask : BitVec 3} (disp : BitVec 5) {s : State}
    (h : Flags.taken mask s.flags = true) :
    exec (.jcc mask disp) s = .next (s.set .ip (s.get .ip + 2#16 + displacement disp)) := by
  simp [exec, execJcc, h, State.consume_set_ip]

theorem exec_jcc_of_not_taken {mask : BitVec 3} (disp : BitVec 5) {s : State}
    (h : ¬ Flags.taken mask s.flags = true) :
    exec (.jcc mask disp) s = .next (s.set .ip (s.get .ip + 2#16)) := by
  simp [exec, execJcc, h, State.consume]

/-! ### The obligations -/

/-- Settles O35. Taken or not, JCC is one write of IP; the two values are sums of integers taken
modulo 65536. -/
theorem conditionalJumpResult : Obligations.ConditionalJumpResult := by
  refine ⟨decode_eq_jcc, fun mask disp s => ?_⟩
  simp only [← Flags.taken_iff]
  by_cases htaken : Flags.taken mask s.flags = true
  · refine ⟨_, exec_jcc_of_taken disp htaken, ?_, set_ip_frame s _⟩
    rw [State.get_set, if_pos rfl, if_pos htaken, address_add_two_eq_ofInt, ofInt_add_displacement]
  · refine ⟨_, exec_jcc_of_not_taken disp htaken, ?_, set_ip_frame s _⟩
    rw [State.get_set, if_pos rfl, if_neg htaken, address_add_two_eq_ofInt]

/-- Settles O34. JMP is one write of IP, by the word its two bytes give. -/
theorem jumpResult : Obligations.JumpResult := by
  refine ⟨decode_eq_jmp, fun target s => ⟨_, exec_jmp target s, ?_, set_ip_frame s target⟩⟩
  rw [State.get_set, if_pos rfl]

end Sys2Proof.Machine
end

section
/-! The presented number and the interrupt-enable bit (R207). -/

namespace Sys2Proof.Machine

@[simp] theorem State.accepts_none (s : State) : s.accepts none = none :=
  ite_self none

/-- With IE clear no presented number is taken. -/
theorem State.accepts_of_ie_clear {s : State} (irq : Option IrqNum) (h : Flags.ie s.flags = false) :
    s.accepts irq = none :=
  if_neg (Bool.eq_false_iff.mp h)

/-- The step presented none is ordinary dispatch: no interrupt, one decoded instruction. -/
theorem stepWith_none (s : State) : stepWith none s = exec (decode s.window) s.spZeroRule :=
  stepWith_of_not_accepted s.accepts_none

/-- Settles O4. A number that is not taken leaves the ordinary dispatch that the step presented none
is too; the named state is what the SP-zero rule makes of `s`. -/
theorem presentedNumberIgnoredWhenDisabled : Obligations.PresentedNumberIgnoredWhenDisabled := by
  intro s
  refine ⟨fun k hie => ?ignored, ?dispatch⟩
  case ignored =>
    calc stepWith (some k) s
        = exec (decode s.window) s.spZeroRule :=
          stepWith_of_not_accepted (State.accepts_of_ie_clear (some k) hie)
      _ = stepWith none s := (stepWith_none s).symm
  case dispatch =>
    rw [stepWith_none, State.window, State.spZeroRule, Config.spDefault]

end Sys2Proof.Machine
end

section
/-! The state right after creation, read through the model's accessors (R33, R230). -/

namespace Sys2Proof.Machine

@[simp] theorem State.get_reset (r : Reg) : State.reset.get r = 0#16 := by
  cases r <;> rfl

@[simp] theorem State.flags_reset : State.reset.flags = 0#16 := rfl

@[simp] theorem State.mem_reset : State.reset.mem = [] := rfl

/-- A memory that lists no byte reads as the reset byte everywhere. -/
@[simp] theorem Memory.readByte_nil (a : Word) : Memory.readByte [] a = Config.resetByte := rfl

/-- Settles O1. The four flags are bits of F, and every bit of zero is clear. -/
theorem resetStateIsZero : Obligations.ResetStateIsZero := by
  refine ⟨State.get_reset, State.flags_reset, fun a => ?memory, ?flags⟩
  case memory => rw [State.mem_reset, Memory.readByte_nil]
  case flags =>
    rw [State.flags_reset]
    exact ⟨BitVec.getLsbD_zero, BitVec.getLsbD_zero, BitVec.getLsbD_zero, BitVec.getLsbD_zero⟩

end Sys2Proof.Machine
end

section
/-! What every step keeps, and how a step reads its input and its instruction (R10, R91, R206). -/

namespace Sys2Proof.Machine

open Sys2Proof.Safety

/-! ### The caller's input -/

@[simp] theorem State.irqs_takeInput (s : State) : s.takeInput.irqs = s.irqs.tail := rfl
@[simp] theorem State.window_takeInput (s : State) : s.takeInput.window = s.window := rfl

/-- A number presented with IE set is taken. -/
theorem State.accepts_of_ie_set {s : State} (irq : Option IrqNum) (h : Flags.ie s.flags = true) :
    s.accepts irq = irq :=
  if_pos h

/-! ### The obligations -/

/-- Settles O9. Memory changes by byte writes only, and each of them keeps the canonical form. -/
theorem everyStepKeepsMemoryCanonical : Obligations.EveryStepKeepsMemoryCanonical := by
  intro s t c hs hstep
  have hbyte : ∀ (u : State) (a : Word) (v : Byte), MemoryCanonical u →
      MemoryCanonical (u.setMem (Memory.writeByte u.mem a v)) :=
    fun _ a v hu => Memory.wf_writeByte a v hu
  exact stepWith_preserves (fun _ _ _ hu => hu) (fun _ _ hu => hu) hbyte s.presented
    (s := s.takeInput) hs hstep

/-- Settles O6. The list is dropped by one before the step begins, and no write touches it. -/
theorem stepReadsOnePresentation : Obligations.StepReadsOnePresentation := by
  intro s t c hstep
  exact stepWith_preserves (P := fun u => u.irqs = s.irqs.tail) (fun _ _ _ hu => hu)
    (fun _ _ hu => hu) (fun _ _ _ hu => hu) s.presented s.irqs_takeInput hstep

/-- Settles O8. Reset memory lists no byte. -/
theorem resetMemoryIsCanonical : Obligations.ResetMemoryIsCanonical :=
  Memory.wf_nil

/-- Settles O3. The input is read first, and the SP-zero rule leaves the flags and the window that
decide between entry and dispatch. -/
theorem stepRunsDecodedInstruction : Obligations.StepRunsDecodedInstruction := by
  intro s i hi _
  have hrule : (if s.get .sp = 0#16 then s.takeInput.set .sp 0xFFF0#16 else s.takeInput) =
      s.takeInput.spZeroRule := rfl
  refine ⟨fun hquiet => ?dispatch, fun k hk hie => ?entry⟩
  case dispatch =>
    have hacc : s.takeInput.accepts s.presented = none := by
      rcases hquiet with hnone | hie
      · rw [hnone, State.accepts_none]
      · exact State.accepts_of_ie_clear _ hie
    rw [hrule, step, stepWith_of_not_accepted hacc, State.window_takeInput, State.window, hi]
  case entry =>
    have hacc : s.takeInput.accepts s.presented = some k :=
      (State.accepts_of_ie_set _ hie).trans hk
    rw [hrule, step, stepWith_of_accepted hacc]

end Sys2Proof.Machine
end

section
/-! The decoder row by row, both ways: which first bytes give which instruction (R62, R69, R92), and
the encoder as its inverse (R93). -/

namespace Sys2Proof

/-! ### The rows of the opcode table -/

/-- The window's bytes and the instruction they stand for: one constructor per row of the opcode
table (R69). The first byte is given by its fields, and where a shift's row depends on its control
byte (R142, R146) that byte's bits stand beside it. -/
inductive DecodesTo (w : Window) : Instr → Prop
  | ret (hb : w.b0 = opcodeByte .op0 .ip .ip) : DecodesTo w .ret
  | jcc (hb : w.b0 = opcodeByte .op1 .ip .ip) :
      DecodesTo w (.jcc (w.b1.extractLsb' 5 3) (w.b1.extractLsb' 0 5))
  | jmp (hb : w.b0 = opcodeByte .op2 .ip .ip) : DecodesTo w (.jmp (wordOfBytes w.b1 w.b2))
  | call (hb : w.b0 = opcodeByte .op3 .ip .ip) : DecodesTo w (.call (wordOfBytes w.b1 w.b2))
  | ld {s : Reg} (hs : s ≠ .ip) (hb : w.b0 = opcodeByte .op0 .ip s) :
      DecodesTo w (.ld s (decodeMem w.b1 (wordOfBytes w.b2 w.b3)))
  | st {s : Reg} (hs : s ≠ .ip) (hb : w.b0 = opcodeByte .op1 .ip s) :
      DecodesTo w (.st s (decodeMem w.b1 (wordOfBytes w.b2 w.b3)))
  | lea {s : Reg} (hs : s ≠ .ip) (hb : w.b0 = opcodeByte .op2 .ip s) :
      DecodesTo w (.lea s (decodeMem w.b1 (wordOfBytes w.b2 w.b3)))
  | illegalM {s : Reg} (hs : s ≠ .ip) (hb : w.b0 = opcodeByte .op3 .ip s) :
      DecodesTo w (.illegalM s)
  | ldi {d : Reg} (hd : d ≠ .ip) (hb : w.b0 = opcodeByte .op0 d .ip) :
      DecodesTo w (.ldi d (wordOfBytes w.b1 w.b2))
  | shl {d : Reg} {c : Count} (hd : d ≠ .ip) (hb : w.b0 = opcodeByte .op1 d .ip)
      (hc : decodeCount w.b1 = some c) (hdir : w.b1.getLsbD 7 = false) :
      DecodesTo w (.shl d (w.b1.getLsbD 6) c)
  | shr {d : Reg} {c : Count} (hd : d ≠ .ip) (hb : w.b0 = opcodeByte .op1 d .ip)
      (hc : decodeCount w.b1 = some c) (hdir : w.b1.getLsbD 7 = true)
      (harith : w.b1.getLsbD 6 = false) : DecodesTo w (.shr d c)
  | sar {d : Reg} {c : Count} (hd : d ≠ .ip) (hb : w.b0 = opcodeByte .op1 d .ip)
      (hc : decodeCount w.b1 = some c) (hdir : w.b1.getLsbD 7 = true)
      (harith : w.b1.getLsbD 6 = true) : DecodesTo w (.sar d c)
  | illegalShift {d : Reg} (hd : d ≠ .ip) (hb : w.b0 = opcodeByte .op1 d .ip)
      (hc : decodeCount w.b1 = none) :
      DecodesTo w (.illegalShift d (w.b1.getLsbD 7) (w.b1.getLsbD 6) (w.b1.extractLsb' 0 5))
  | not {d : Reg} (hd : d ≠ .ip) (hb : w.b0 = opcodeByte .op2 d .ip) : DecodesTo w (.not d)
  | neg {d : Reg} (hd : d ≠ .ip) (hb : w.b0 = opcodeByte .op3 d .ip) : DecodesTo w (.neg d)
  | mov {d s : Reg} (hd : d ≠ .ip) (hs : s ≠ .ip) (hb : w.b0 = opcodeByte .op0 d s) :
      DecodesTo w (.mov d s)
  | add {d s : Reg} (hd : d ≠ .ip) (hs : s ≠ .ip) (hb : w.b0 = opcodeByte .op1 d s) :
      DecodesTo w (.add d s)
  | and {d s : Reg} (hd : d ≠ .ip) (hs : s ≠ .ip) (hb : w.b0 = opcodeByte .op2 d s) :
      DecodesTo w (.and d s)
  | xor {d s : Reg} (hd : d ≠ .ip) (hs : s ≠ .ip) (hb : w.b0 = opcodeByte .op3 d s) :
      DecodesTo w (.xor d s)

/-- A shift's row is chosen by whether its control byte has a count, then by `dir` and `arith`. -/
theorem decodesTo_decodeShift {w : Window} {d : Reg} (hd : d ≠ .ip)
    (hb : w.b0 = opcodeByte .op1 d .ip) : DecodesTo w (decodeShift d w.b1) := by
  unfold decodeShift
  dsimp only
  split
  · next hc => exact .illegalShift hd hb hc
  · next c hc =>
    cases hdir : w.b1.getLsbD 7 with
    | false => exact .shl hd hb hc hdir
    | true =>
      cases harith : w.b1.getLsbD 6 with
      | false => exact .shr hd hb hc hdir harith
      | true => exact .sar hd hb hc hdir harith

/-- Every window has a row, the one the decoder takes: dispatch is total (R92, R93). -/
theorem decodesTo_decode (w : Window) : DecodesTo w (decode w) := by
  have hb := (opcodeByte_fields w.b0).symm
  unfold decode
  dsimp only
  generalize Op.ofBits (w.b0.extractLsb' 6 2) = op at hb ⊢
  generalize Reg.ofBits (w.b0.extractLsb' 3 3) = d at hb ⊢
  generalize Reg.ofBits (w.b0.extractLsb' 0 3) = s at hb ⊢
  split
  · next hd =>
    subst hd
    split
    · next hs =>
      subst hs
      cases op
      · exact .ret hb
      · exact .jcc hb
      · exact .jmp hb
      · exact .call hb
    · next hs =>
      cases op
      · exact .ld hs hb
      · exact .st hs hb
      · exact .lea hs hb
      · exact .illegalM hs hb
  · next hd =>
    split
    · next hs =>
      subst hs
      cases op
      · exact .ldi hd hb
      · exact decodesTo_decodeShift hd hb
      · exact .not hd hb
      · exact .neg hd hb
    · next hs =>
      cases op
      · exact .mov hd hs hb
      · exact .add hd hs hb
      · exact .and hd hs hb
      · exact .xor hd hs hb

/-- A window has one row: what a row gives is what the decoder answers. -/
theorem DecodesTo.decode_eq {w : Window} {i : Instr} (h : DecodesTo w i) : decode w = i := by
  cases h with
  | shl hd hb hc hdir => simp [decode, decodeShift, hd, hb, hc, hdir, -BitVec.getLsbD_eq_getElem]
  | shr hd hb hc hdir harith =>
    simp [decode, decodeShift, hd, hb, hc, hdir, harith, -BitVec.getLsbD_eq_getElem]
  | sar hd hb hc hdir harith =>
    simp [decode, decodeShift, hd, hb, hc, hdir, harith, -BitVec.getLsbD_eq_getElem]
  | illegalShift hd hb hc => simp [decode, decodeShift, hd, hb, hc]
  | _ => simp [decode, *]

/-! ### The encoder undoes the decoder, field by field -/

theorem encodeWord_wordOfBytes (lo hi : Byte) : encodeWord (wordOfBytes lo hi) = [lo, hi] := by
  simp [encodeWord]

theorem rmByte_decodeMem (rm : Byte) (imm : Word) : rmByte (decodeMem rm imm) = rm := by
  have hbase : (encodeBase (decodeMem rm imm).base).1 = Op.ofBits (rm.extractLsb' 6 2) := by
    unfold decodeMem
    dsimp only
    cases Op.ofBits (rm.extractLsb' 6 2) <;> rfl
  unfold rmByte
  rw [hbase]
  simp only [decodeMem, Op.bits_ofBits, Reg.bits_ofBits]
  clear hbase
  revert rm
  decide +kernel

/-- Encoding a decoded addressing mode gives back `rm`, and in mode 3 the word after it. -/
theorem encodeMem_decodeMem (rm lo hi : Byte) :
    encodeMem (decodeMem rm (wordOfBytes lo hi)) =
      [rm, lo, hi].take (decodeMem rm (wordOfBytes lo hi)).length := by
  rw [encodeMem, rmByte_decodeMem]
  simp only [decodeMem, Mem.length]
  cases Op.ofBits (rm.extractLsb' 6 2) with
  | op3 => rw [encodeBase, encodeWord_wordOfBytes]; rfl
  | _ => rfl

theorem shiftByte_fields (b : Byte) :
    shiftByte (b.getLsbD 7) (b.getLsbD 6) (b.extractLsb' 0 6) = b := by
  revert b; decide +kernel

/-- Encoding a decoded count gives back the low six bits of the control byte. -/
theorem encodeCount_of_decodeCount {ctrl : Byte} {c : Count} (h : decodeCount ctrl = some c) :
    encodeCount c = ctrl.extractLsb' 0 6 := by
  have hreg : ∀ b : Byte, b.getLsbD 5 = true → b.extractLsb' 3 2 = 0#2 →
      1#1 ++ 0#2 ++ b.extractLsb' 0 3 = b.extractLsb' 0 6 := by decide +kernel
  have himm : ∀ b : Byte, b.getLsbD 5 ≠ true →
      0#1 ++ b.extractLsb' 0 5 = b.extractLsb' 0 6 := by decide +kernel
  unfold decodeCount at h
  split at h
  · next hrc =>
    split at h <;> cases h
    next hcnt => rw [encodeCount, Reg.bits_ofBits]; exact hreg ctrl hrc hcnt
  · next hrc => cases h; exact himm ctrl hrc

/-- A control byte with no count has `rc` = 1 before its count field. -/
theorem count_bits_of_decodeCount_none {ctrl : Byte} (h : decodeCount ctrl = none) :
    1#1 ++ ctrl.extractLsb' 0 5 = ctrl.extractLsb' 0 6 := by
  revert ctrl; decide +kernel

/-! ### The decoder undoes the encoder -/

theorem decodeShift_illegal {dir a : Bool} {cnt : BitVec 5} (d : Reg) (h : 7 < cnt.toNat) :
    decodeShift d (shiftByte dir a (1#1 ++ cnt)) = .illegalShift d dir a cnt := by
  have hnone : ∀ k : BitVec 5, 7 < k.toNat →
      decodeCount (shiftByte dir a (1#1 ++ k)) = none ∧
        (shiftByte dir a (1#1 ++ k)).extractLsb' 0 5 = k := by
    cases dir <;> cases a <;> decide +kernel
  obtain ⟨hc, hk⟩ := hnone cnt h
  obtain ⟨hdir, ha⟩ := shiftByte_bits dir a (1#1 ++ cnt)
  rw [decodeShift_of_decodeCount_none d hc, hdir, ha, hk]

theorem decodeShift_legal (d : Reg) (dir a : Bool) (c : Count) :
    decodeShift d (shiftByte dir a (encodeCount c)) =
      if dir then (if a then .sar d c else .shr d c) else .shl d a c := by
  obtain ⟨hdir, ha⟩ := shiftByte_bits dir a (encodeCount c)
  simp only [decodeShift, decodeCount_shiftByte, hdir, ha]

/-- The decoder takes out of the bytes of an addressing mode what the encoder put there, whatever
bytes come after. -/
theorem decodeMem_encodeMem (m : Mem) (rest : List Byte) :
    decodeMem ((encodeMem m ++ rest).getD 0 0)
      (wordOfBytes ((encodeMem m ++ rest).getD 1 0) ((encodeMem m ++ rest).getD 2 0)) = m := by
  refine decodeMem_rmByte m _ fun w hw => ?_
  simp [encodeMem, hw, encodeBase, encodeWord]

/-- Whatever bytes follow, the window that begins with a well-formed instruction's bytes decodes to
it. -/
theorem decode_encode {i : Instr} (rest : List Byte) (h : i.WellFormed) :
    decode (Window.ofBytes (encode i ++ rest)) = i := by
  cases i with
  | ret => simp [decode, encode, Window.ofBytes]
  | jcc mask disp => simp [decode, encode, Window.ofBytes, jccByte_mask, jccByte_disp]
  | jmp t | call t => simp [decode, encode, Window.ofBytes, encodeWord]
  | ld s m | st s m | lea s m =>
    have hs : s ≠ .ip := (Reg.nonzero_iff s).mp h
    simpa [decode, encode, Window.ofBytes, hs] using decodeMem_encodeMem m rest
  | illegalM s =>
    have hs : s ≠ .ip := (Reg.nonzero_iff s).mp h
    simp [decode, encode, Window.ofBytes, hs]
  | ldi d w =>
    have hd : d ≠ .ip := (Reg.nonzero_iff d).mp h
    simp [decode, encode, Window.ofBytes, encodeWord, hd]
  | shl d a c | shr d c | sar d c =>
    have hd : d ≠ .ip := (Reg.nonzero_iff d).mp h
    simp [decode, encode, Window.ofBytes, decodeShift_legal, hd]
  | illegalShift d dir a cnt =>
    obtain ⟨hd, hcnt⟩ : d ≠ .ip ∧ 7 < cnt.toNat := by simpa [Instr.WellFormed, Instr.wf] using h
    simp [decode, encode, Window.ofBytes, decodeShift_illegal d hcnt, hd]
  | not d | neg d =>
    have hd : d ≠ .ip := (Reg.nonzero_iff d).mp h
    simp [decode, encode, Window.ofBytes, hd]
  | mov d s | add d s | and d s | xor d s =>
    obtain ⟨hd, hs⟩ : d ≠ .ip ∧ s ≠ .ip := by simpa [Instr.WellFormed, Instr.wf] using h
    simp [decode, encode, Window.ofBytes, hd, hs]

/-! ### Lengths -/

open Laws.EncodeLength in
/-- The encoder writes as many bytes as the instruction has (R70). -/
theorem encode_length : ∀ i : Instr, (encode i).length = i.length
  | .ret => ret
  | .jcc mask disp => jcc mask disp
  | .jmp t => jmp t
  | .call t => call t
  | .ld s m => ld s m
  | .st s m => st s m
  | .lea s m => lea s m
  | .illegalM s => illegalM s
  | .ldi d w => ldi d w
  | .shl d a c => shl d a c
  | .shr d c => shr d c
  | .sar d c => sar d c
  | .illegalShift d dir a k => illegalShift d dir a k
  | .not d => not d
  | .neg d => neg d
  | .mov d s => mov d s
  | .add d s => add d s
  | .and d s => and d s
  | .xor d s => xor d s

/-! ### The length from the first bytes (R71) -/

/-- The fields of an opcode byte as numbers (R61). -/
theorem opcodeByte_numbers (op : Op) (d s : Reg) :
    (opcodeByte op d s).toNat / 64 = op.bits.toNat ∧
      (opcodeByte op d s).toNat / 8 % 8 = d.bits.toNat ∧
      (opcodeByte op d s).toNat % 8 = s.bits.toNat := by
  cases op <;> cases d <;> cases s <;> decide

theorem Reg.toNat_bits_eq_zero_iff (r : Reg) : r.bits.toNat = 0 ↔ r = .ip := by
  cases r <;> decide

/-- An addressing mode has three bytes where `rm[7:6]` is 3 and one byte elsewhere (R63). -/
theorem decodeMem_length (rm : Byte) (imm : Word) :
    (decodeMem rm imm).length = if rm.toNat / 64 = 3 then 3 else 1 := by
  have h := op_field_eq_iff rm
  simp only [decodeMem, Mem.length]
  cases hop : Op.ofBits (rm.extractLsb' 6 2) <;> simp [(h _).mp hop, Op.bits]

/-! ### The obligations -/

/-- Settles O46. The encoder's length is the instruction's, so what the decoder leaves over is what
followed. -/
theorem decodeOfEncode : Obligations.DecodeOfEncode := by
  intro i rest hwf
  have hlen := encode_length i
  have hfits : i.length ≤ (encode i ++ rest).length := by rw [List.length_append]; omega
  have hrest : (encode i ++ rest).drop i.length = rest := List.drop_left' hlen
  simp only [decodeBytes, decode_encode rest hwf, if_pos hfits, hrest]

/-- Settles O47. Row by row the encoder writes the fields that the row names back to where the
decoder read them. -/
theorem encodeOfDecode : Obligations.EncodeOfDecode := by
  intro w
  have h := decodesTo_decode w
  have hctrl := shiftByte_fields w.b1
  generalize decode w = i at h ⊢
  cases h with
  | jcc hb => simp [encode, Instr.length, hb, jccByte_fields]
  | jmp hb | call hb | ldi _ hb => simp [encode, Instr.length, hb, encodeWord_wordOfBytes]
  | ld _ hb | st _ hb | lea _ hb =>
    simp [encode, Instr.length, hb, encodeMem_decodeMem, Nat.add_comm 1]
  | shl _ hb hc hdir =>
    rw [hdir, ← encodeCount_of_decodeCount hc] at hctrl
    rw [encode, hctrl, ← hb]; rfl
  | shr _ hb hc hdir harith | sar _ hb hc hdir harith =>
    rw [hdir, harith, ← encodeCount_of_decodeCount hc] at hctrl
    rw [encode, hctrl, ← hb]; rfl
  | illegalShift _ hb hc =>
    rw [← count_bits_of_decodeCount_none hc] at hctrl
    rw [encode, hctrl, ← hb]; rfl
  | _ => simp [encode, Instr.length, *]

/-- Settles O48. Every row asks of its fields what well-formedness asks. -/
theorem decodedInstructionIsWellFormed : Obligations.DecodedInstructionIsWellFormed := by
  intro w
  have h := decodesTo_decode w
  generalize decode w = i at h ⊢
  cases h with
  | illegalShift hd _ hc =>
    have hcnt : 7 < w.b1.toNat % 32 := ((decodeCount_eq_none_iff _).mp hc).2
    simpa [Instr.WellFormed, Instr.wf, hd] using hcnt
  | _ => simp [Instr.WellFormed, Instr.wf, *]

/-- Settles O49. The fields as numbers are those of the row's first byte. -/
theorem lengthFromFirstBytes : Obligations.LengthFromFirstBytes := by
  intro w
  have h := decodesTo_decode w
  generalize decode w = i at h ⊢
  have hnum := opcodeByte_numbers
  have hzero := Reg.toNat_bits_eq_zero_iff
  cases h with
  | ld hs hb | st hs hb | lea hs hb =>
    simp [hb, hnum, hzero, hs, Op.bits, Instr.length, decodeMem_length, apply_ite (1 + ·)]
  | _ => simp [*, Op.bits, Instr.length]

/-- Settles O50, by running the decoder on the eight words. -/
theorem writtenOutWordsDecode : Obligations.WrittenOutWordsDecode := by
  unfold Obligations.WrittenOutWordsDecode
  decide

end Sys2Proof
end

section
/-! Decode-then-execute against the byte-by-byte order (R91, R92, R94): family by family the rule that
the opcode fields select does what the decoded instruction does. -/

namespace Sys2Proof.Machine

/-! ### The bytes after the opcode and `rm` bytes -/

/-- The window's third and fourth bytes are the word at the IP past two bytes. -/
theorem State.readWord_consume_two (s : State) :
    Memory.readWord (s.consume 2#16).mem ((s.consume 2#16).get .ip) =
      wordOfBytes s.window.b2 s.window.b3 := by
  have h : s.get .ip + 2#16 + 1#16 = s.get .ip + 3#16 := by bv_omega
  simp [Memory.readWord, State.window, Memory.windowAt, h]

/-! ### The address resolver -/

/-- A pre-decrement of a register other than IP leaves IP. -/
theorem get_ip_preDecrement {m : Mem} (s : State) (h : (m.pre && m.n == .ip) = false) :
    (preDecrement m s).get .ip = s.get .ip := by
  unfold preDecrement
  split
  · next hpre =>
    have hn : Reg.ip ≠ m.n := fun e => by simp [hpre, ← e] at h
    rw [State.get_set, if_neg hn]
  · rfl

/-- The mode-3 word, decoded before the pre-decrement or read again at the lowered IP, is the word at
the IP that the pre-decrement leaves (R94, R113). -/
theorem streamWord_preDecrement (m : Mem) (s : State) :
    streamWord m (Memory.readWord s.mem (s.get .ip)) (preDecrement m s) =
      Memory.readWord (preDecrement m s).mem ((preDecrement m s).get .ip) := by
  unfold streamWord
  split
  · rfl
  · next h => rw [mem_preDecrement, get_ip_preDecrement s (Bool.eq_false_iff.mpr h)]

/-- Fetching the base after the pre-decrement gives what the decoded base stands for (R111). -/
theorem reference_base (rm : Byte) (s : State) :
    let m := decodeMem rm (Memory.readWord s.mem (s.get .ip))
    Reference.base (Op.ofBits (rm.extractLsb' 6 2)) (preDecrement m s) =
      (baseValue m (preDecrement m s), consumeBase m (preDecrement m s)) := by
  intro m
  have hstream := streamWord_preDecrement m s
  have hbase : m.base = match Op.ofBits (rm.extractLsb' 6 2) with
    | .op0 => .none | .op1 => .bp | .op2 => .sp
    | .op3 => .imm (Memory.readWord s.mem (s.get .ip)) := rfl
  cases hop : Op.ofBits (rm.extractLsb' 6 2) <;> rw [hop] at hbase <;>
    simp [Reference.base, baseValue, consumeBase, hbase, State.fetch16, hstream]

theorem sizeBytes_decodeMem (rm : Byte) (imm : Word) :
    sizeBytes (decodeMem rm imm).size = if rm.getLsbD 5 then 2#16 else 1#16 := by
  unfold decodeMem
  dsimp only
  split <;> rfl

/-- The resolver on the `rm` byte is the resolver on the addressing mode decoded from it and from the
word after it (R112). -/
theorem reference_resolve (rm : Byte) (s : State) :
    Reference.resolve rm (if rm.getLsbD 5 then 2#16 else 1#16) s =
      resolve (decodeMem rm (Memory.readWord s.mem (s.get .ip))) s := by
  have hbase := reference_base rm s
  dsimp only at hbase
  simp only [← sizeBytes_decodeMem rm (Memory.readWord s.mem (s.get .ip))]
  generalize hm : decodeMem rm (Memory.readWord s.mem (s.get .ip)) = m at hbase ⊢
  have hn : Reg.ofBits (rm.extractLsb' 0 3) = m.n := by rw [← hm]; rfl
  have hpre : rm.getLsbD 3 = m.pre := by rw [← hm]; rfl
  have hpost : rm.getLsbD 4 = m.post := by rw [← hm]; rfl
  have hdec : (if m.pre then s.set m.n (s.get m.n - sizeBytes m.size) else s) = preDecrement m s :=
    rfl
  simp only [Reference.resolve, hn, hpre, hpost, hdec, hbase]
  rfl

/-- The resolver after the opcode and `rm` bytes have been fetched (R120 to R122). -/
theorem reference_resolve_window (s : State) :
    Reference.resolve s.window.b1 (if s.window.b1.getLsbD 5 then 2#16 else 1#16) (s.consume 2#16) =
      resolveOperand (decodeMem s.window.b1 (wordOfBytes s.window.b2 s.window.b3)) s := by
  rw [reference_resolve, State.readWord_consume_two, resolveOperand]

/-! ### The memory family -/

theorem reference_ld (r : Reg) (s : State) :
    Reference.memoryFamily .op0 r (s.consume 1#16) =
      exec (.ld r (decodeMem s.window.b1 (wordOfBytes s.window.b2 s.window.b3))) s := by
  have hres := reference_resolve_window s
  have hsize : (decodeMem s.window.b1 (wordOfBytes s.window.b2 s.window.b3)).size =
      if s.window.b1.getLsbD 5 then .word else .byte := rfl
  generalize decodeMem s.window.b1 (wordOfBytes s.window.b2 s.window.b3) = m at hres hsize ⊢
  simp only [Reference.memoryFamily, State.fetch8_consume_one, hres, exec, execLd, hsize]
  cases s.window.b1.getLsbD 5
  · simp
  · cases hodd : odd (resolveOperand m s).1 <;> simp [Memory.alignedRead, hodd]

theorem reference_st (r : Reg) (s : State) :
    Reference.memoryFamily .op1 r (s.consume 1#16) =
      exec (.st r (decodeMem s.window.b1 (wordOfBytes s.window.b2 s.window.b3))) s := by
  have hres := reference_resolve_window s
  have hsize : (decodeMem s.window.b1 (wordOfBytes s.window.b2 s.window.b3)).size =
      if s.window.b1.getLsbD 5 then .word else .byte := rfl
  generalize decodeMem s.window.b1 (wordOfBytes s.window.b2 s.window.b3) = m at hres hsize ⊢
  simp only [Reference.memoryFamily, State.fetch8_consume_one, hres, exec, execSt, hsize]
  cases s.window.b1.getLsbD 5
  · simp
  · cases hodd : odd (resolveOperand m s).1 <;> simp [Memory.alignedWrite, hodd]

theorem reference_lea (r : Reg) (s : State) :
    Reference.memoryFamily .op2 r (s.consume 1#16) =
      exec (.lea r (decodeMem s.window.b1 (wordOfBytes s.window.b2 s.window.b3))) s := by
  simp only [Reference.memoryFamily, State.fetch8_consume_one, reference_resolve_window]
  rfl

/-! ### Shifts (R142 to R146) -/

theorem toNat_count_field (ctrl : Byte) : (ctrl.extractLsb' 0 5).toNat = ctrl.toNat % 32 := by
  simp

/-- The operational test for an illegal count is that the control byte has no count. -/
theorem illegal_count_test (ctrl : Byte) :
    (ctrl.getLsbD 5 && decide (7 < (ctrl.extractLsb' 0 5).toNat)) = (decodeCount ctrl).isNone := by
  rw [Bool.eq_iff_iff, Option.isNone_iff_eq_none, decodeCount_eq_none_iff, Bool.and_eq_true,
    decide_eq_true_eq, rc_bit_iff, toNat_count_field]

/-- The amount taken from a legal control byte is that of the count decoded from it. -/
theorem shiftAmount_of_decodeCount {ctrl : Byte} {c : Count} (h : decodeCount ctrl = some c)
    (s : State) :
    (if ctrl.getLsbD 5 then (s.get (Reg.ofBits (ctrl.extractLsb' 0 3))).toNat % 32
      else (ctrl.extractLsb' 0 5).toNat) = shiftAmount c s := by
  unfold decodeCount at h
  split at h
  · next hrc =>
    split at h <;> cases h
    simp [hrc, shiftAmount]
  · next hrc => cases h; rw [if_neg hrc, shiftAmount]

theorem reference_shift_legal {s : State} {c : Count} (d : Reg)
    (h : decodeCount s.window.b1 = some c) :
    Reference.shift d (s.consume 1#16) = .next (shiftBy
      (fun v k => if s.window.b1.getLsbD 7 then
          (if s.window.b1.getLsbD 6 then shiftArith v k else shiftRight v k)
        else shiftLeft v k) d c s) := by
  simp only [Reference.shift, State.fetch8_consume_one, illegal_count_test, h,
    shiftAmount_of_decodeCount h]
  rfl

theorem reference_shift_illegal {s : State} (d : Reg) (h : decodeCount s.window.b1 = none) :
    Reference.shift d (s.consume 1#16) = .fault (.illegal (s.consume 2#16)) := by
  simp only [Reference.shift, State.fetch8_consume_one, illegal_count_test, h]
  rfl

/-! ### JCC (R172) -/

theorem reference_jcc (s : State) :
    Reference.controlFlow .op1 (s.consume 1#16) =
      exec (.jcc (s.window.b1.extractLsb' 5 3) (s.window.b1.extractLsb' 0 5)) s := by
  simp only [Reference.controlFlow, State.fetch8_consume_one, exec, execJcc, Flags.taken,
    bne_iff_ne, ite_not]

/-! ### The step -/

/-- Dispatch on the fields of the first byte does what the instruction decoded from the window does. -/
theorem reference_dispatch {s : State} {i : Instr} (h : DecodesTo s.window i) :
    Reference.dispatch (Op.ofBits (s.window.b0.extractLsb' 6 2))
      (Reg.ofBits (s.window.b0.extractLsb' 3 3)) (Reg.ofBits (s.window.b0.extractLsb' 0 3))
      (s.consume 1#16) = exec i s := by
  unfold Reference.dispatch
  cases h with
  | ret hb => simp [hb, Reference.controlFlow, exec, execRet]
  | jcc hb => simp only [hb, opcodeByte_op, opcodeByte_d, opcodeByte_s, if_true, reference_jcc]
  | jmp hb =>
    simp [hb, Reference.controlFlow, State.fetch16_consume_one, exec, execJmp]
  | call hb =>
    simp [hb, Reference.controlFlow, State.fetch16_consume_one, exec, execCall]
  | ld hs hb => simp [hb, hs, reference_ld]
  | st hs hb => simp [hb, hs, reference_st]
  | lea hs hb => simp [hb, hs, reference_lea]
  | illegalM hs hb => simp [hb, hs, Reference.memoryFamily, exec, execIllegalM]
  | ldi hd hb =>
    simp [hb, hd, Reference.immediateFamily, State.fetch16_consume_one, exec, execLdi]
  | shl hd hb hc hdir =>
    simp [hb, hd, Reference.immediateFamily, reference_shift_legal _ hc, hdir, exec, execShl,
      -BitVec.getLsbD_eq_getElem]
  | shr hd hb hc hdir harith =>
    simp [hb, hd, Reference.immediateFamily, reference_shift_legal _ hc, hdir, harith, exec, execShr,
      -BitVec.getLsbD_eq_getElem]
  | sar hd hb hc hdir harith =>
    simp [hb, hd, Reference.immediateFamily, reference_shift_legal _ hc, hdir, harith, exec, execSar,
      -BitVec.getLsbD_eq_getElem]
  | illegalShift hd hb hc =>
    simp [hb, hd, Reference.immediateFamily, reference_shift_illegal _ hc, exec, execIllegalShift]
  | not hd hb => simp [hb, hd, Reference.immediateFamily, exec, execNot]
  | neg hd hb => simp [hb, hd, Reference.immediateFamily, exec, execNeg]
  | mov hd hs hb => simp [hb, hd, hs, Reference.registerFamily, exec, execMov]
  | add hd hs hb => simp [hb, hd, hs, Reference.registerFamily, exec, execAdd]
  | and hd hs hb => simp [hb, hd, hs, Reference.registerFamily, exec, execAnd]
  | xor hd hs hb => simp [hb, hd, hs, Reference.registerFamily, exec, execXor]

/-- Fetching the opcode byte and dispatching on it is executing the decoded instruction. -/
theorem reference_fetch_dispatch (s : State) :
    Reference.dispatch (Op.ofBits (s.fetch8.1.extractLsb' 6 2))
      (Reg.ofBits (s.fetch8.1.extractLsb' 3 3)) (Reg.ofBits (s.fetch8.1.extractLsb' 0 3))
      s.fetch8.2 = exec (decode s.window) s :=
  reference_dispatch (decodesTo_decode s.window)

/-- Settles O7. After the SP-zero rule both take the same interrupt; where they take none, the rule
that the fetched opcode byte selects is the decoded instruction's meaning. -/
theorem stepEqualsOperationalOrder : Obligations.StepEqualsOperationalOrder := by
  intro irq s
  have hdispatch := reference_fetch_dispatch s.spZeroRule
  unfold stepWith Reference.step State.accepts
  cases irq with
  | none => simpa using hdispatch.symm
  | some k =>
    cases hie : Flags.ie s.flags with
    | true => simp [hie]
    | false => simpa [hie] using hdispatch.symm

end Sys2Proof.Machine
end

section
/-! The address resolver register by register (R112, R113), and the frames of LEA and of the fetch
after a store (R122, R56). -/

namespace Sys2Proof.Machine

open Sys2Proof.Safety

/-! ### What the resolver's steps add to a register -/

/-- What pre-decrement takes from the index register (R112). -/
def decAmount (m : Mem) : Word := if m.pre then sizeBytes m.size else 0#16

/-- What post-increment adds to the index register (R112). -/
def incAmount (m : Mem) : Word := if m.post then sizeBytes m.size else 0#16

/-- What fetching the base word adds to IP (R111). -/
def streamAmount (m : Mem) : Word := match m.base with | .imm _ => 2#16 | _ => 0#16

theorem get_preDecrement (m : Mem) (s : State) (r : Reg) :
    (preDecrement m s).get r = s.get r - if r = m.n then decAmount m else 0#16 := by
  unfold preDecrement decAmount
  by_cases hr : r = m.n <;> cases m.pre <;> simp [hr]

theorem get_consumeBase (m : Mem) (s : State) (r : Reg) :
    (consumeBase m s).get r = s.get r + if r = .ip then streamAmount m else 0#16 := by
  unfold consumeBase streamAmount
  by_cases hr : r = .ip <;> cases m.base <;> simp [hr]

theorem get_postIncrement (m : Mem) (s : State) (r : Reg) :
    (postIncrement m s).get r = s.get r + if r = m.n then incAmount m else 0#16 := by
  unfold postIncrement incAmount
  by_cases hr : r = m.n <;> cases m.post <;> simp [hr]

/-! ### The resolver's answer -/

/-- Every register after the resolver: the index register less the pre-decrement and plus the
post-increment, IP past the base word (R112). -/
theorem get_resolve (m : Mem) (s : State) (r : Reg) :
    (resolve m s).2.get r = s.get r - (if r = m.n then decAmount m else 0#16) +
      (if r = .ip then streamAmount m else 0#16) + if r = m.n then incAmount m else 0#16 := by
  simp only [resolve, get_postIncrement, get_consumeBase, get_preDecrement]

/-- The effective address: the base and the index register, both after the pre-decrement, and IP past
the base word where the index register is IP (R112, R113). -/
theorem resolve_address (m : Mem) (s : State) :
    (resolve m s).1 = baseValue m (preDecrement m s) +
      (s.get m.n - decAmount m + if m.n = .ip then streamAmount m else 0#16) := by
  simp only [resolve, get_consumeBase, get_preDecrement, if_true]

theorem sameMemory_resolve (m : Mem) (s : State) : SameMemory s (resolve m s).2 :=
  fun _ => by rw [mem_resolve]

/-! ### The obligations -/

/-- Settles O19. With an index register that is not IP the decoded base word is the one used, and the
two amounts of the index register fall on it alone. -/
theorem resolverWithOrdinaryIndex : Obligations.ResolverWithOrdinaryIndex := by
  intro m s hn size dec inc base stream
  have hdec : decAmount m = dec := rfl
  have hbase : baseValue m (preDecrement m s) = base := by
    unfold baseValue base
    cases m.base with
    | none => rfl
    | bp | sp => simp only [get_preDecrement, hdec, eq_comm]
    | imm w => simp [streamWord, hn]
  refine ⟨?address, ?index, ?ip, fun r hr => ?others, flags_resolve m s, sameMemory_resolve m s,
    irqs_resolve m s⟩
  case address => rw [resolve_address, hbase, if_neg hn, BitVec.add_zero]; rfl
  case index => rw [get_resolve, if_pos rfl, if_pos rfl, if_neg hn, BitVec.add_zero]; rfl
  case ip =>
    simp only [get_resolve, if_neg (Ne.symm hn), if_true, BitVec.sub_zero, BitVec.add_zero]; rfl
  case others =>
    obtain ⟨hrn, hrip⟩ : r ≠ m.n ∧ r ≠ .ip := by simpa using hr
    exact get_resolve_of_ne m s r hrn hrip

/-- Settles O20. With index register IP all three amounts fall on IP, and a mode-3 base is read at the
lowered IP where there is a pre-decrement. -/
theorem resolverWithIndexIp : Obligations.ResolverWithIndexIp := by
  intro m s hn size low inc base stream
  have hlow : s.get .ip - decAmount m = low := rfl
  have hbase : baseValue m (preDecrement m s) = base := by
    unfold baseValue base
    cases m.base with
    | none => rfl
    | bp | sp => simp [get_preDecrement, hn]
    | imm w => simp [streamWord, get_preDecrement, hn, hlow]
  refine ⟨?address, ?ip, fun r hr => ?others, flags_resolve m s, sameMemory_resolve m s,
    irqs_resolve m s⟩
  case address => rw [resolve_address, hbase, hn, if_pos rfl, hlow]; rfl
  case ip => rw [get_resolve, hn, if_pos rfl, if_pos rfl, if_pos rfl, hlow]; rfl
  case others =>
    have hrip : r ≠ .ip := List.mem_singleton.not.mp hr
    exact get_resolve_of_ne m s r (hn ▸ hrip) hrip

/-- Settles O23. LEA is the resolver and one register write. -/
theorem loadEffectiveAddressResult : Obligations.LoadEffectiveAddressResult := by
  intro d m s _
  refine ⟨_, rfl, ?_, resolveOperand_set_frame d m s _⟩
  rw [State.get_set, if_pos rfl]

/-- Settles O24. The byte at the effective address is the one just written: of a word the low byte,
as no address is its own successor. -/
theorem fetchSeesStoredByte : Obligations.FetchSeesStoredByte := by
  intro d m s t h
  obtain ⟨hbyte, heven, hodd⟩ := storeResult d m s
  show (Memory.readByte t.mem (resolveOperand m s).1).toNat = _
  cases hsz : m.size with
  | byte =>
    obtain ⟨u, hu, hread, -⟩ := hbyte hsz
    cases h.symm.trans hu
    exact hread
  | word =>
    rcases Nat.mod_two_eq_zero_or_one (resolveOperand m s).1.toNat with hea | hea
    · obtain ⟨u, hu, hread, -⟩ := heven hsz hea
      cases h.symm.trans hu
      exact hread
    · cases h.symm.trans (hodd hsz hea)

end Sys2Proof.Machine
end

section
/-! What an instruction can answer, once, and what follows for every instruction and step: the
outcomes, the causes of the two faults, and the frames (R95, R96, R200 to R204). -/

namespace Sys2Proof

/-- The destination of an ALU instruction (43_alu.md); none for the other families and for the illegal
shift. -/
def Instr.aluDest : Instr → Option Reg
  | .ldi d _ | .shl d _ _ | .shr d _ | .sar d _ | .not d | .neg d | .mov d _ | .add d _ | .and d _
  | .xor d _ => some d
  | _ => none

theorem Instr.aluDest_ne_ip {i : Instr} {d : Reg} (hwf : i.WellFormed) (h : i.aluDest = some d) :
    d ≠ .ip := by
  cases i with
  | ldi | shl | shr | sar | not | neg => cases h; exact (Reg.nonzero_iff d).mp hwf
  | mov | add | and | xor =>
    cases h
    exact (Reg.nonzero_iff d).mp (Bool.and_eq_true_iff.mp hwf).1
  | _ => cases h

/-- The two illegal rows of the opcode table (R201). -/
def Instr.IsIllegal (i : Instr) : Prop :=
  (∃ r, i = .illegalM r) ∨ ∃ d dir arith cnt, i = .illegalShift d dir arith cnt

end Sys2Proof

namespace Sys2Proof.Machine

open Sys2Proof.Safety

/-! ### RET and CALL by the parity of SP -/

theorem odd_sp_eq_false {s : State} (h : StackAligned s) : odd (s.get .sp) = false :=
  (odd_eq_false_iff _).mpr h

theorem odd_sp_eq_true {s : State} (h : ¬ StackAligned s) : odd (s.get .sp) = true :=
  (odd_iff _).mpr (Nat.mod_two_ne_zero.mp h)

theorem exec_ret_of_aligned {s : State} (h : StackAligned s) :
    exec .ret s = .next (s.consume 1#16).returnFromStack := by
  simp [exec, execRet, odd_sp_eq_false h]

theorem exec_ret_of_misaligned {s : State} (h : ¬ StackAligned s) :
    exec .ret s = .fault (.unaligned (s.consume 1#16)) := by
  simp [exec, execRet, odd_sp_eq_true h]

theorem exec_call_of_aligned (target : Word) {s : State} (h : StackAligned s) :
    exec (.call target) s =
      .next (((s.consume 3#16).push (s.get .ip + 3#16)).set .ip target) := by
  simp [exec, execCall, odd_sp_eq_false h]

theorem exec_call_of_misaligned (target : Word) {s : State} (h : ¬ StackAligned s) :
    exec (.call target) s = .fault (.unaligned (s.consume 3#16)) := by
  simp [exec, execCall, odd_sp_eq_true h]

/-! ### Everything an instruction can answer -/

/-- The instructions and what each can answer from `s`, with the condition of each answer. -/
inductive Answers (s : State) : Instr → Host.Outcome State Fault Refusal → Prop
  | ret (h : StackAligned s) : Answers s .ret (.next (s.consume 1#16).returnFromStack)
  | retMisaligned (h : ¬ StackAligned s) : Answers s .ret (.fault (.unaligned (s.consume 1#16)))
  | jcc (mask : BitVec 3) (disp : BitVec 5) (v : Word) :
      Answers s (.jcc mask disp) (.next (s.set .ip v))
  | jmp (target : Word) : Answers s (.jmp target) (.next (s.set .ip target))
  | call (target : Word) (h : StackAligned s) : Answers s (.call target)
      (.next (((s.consume 3#16).push (s.get .ip + 3#16)).set .ip target))
  | callMisaligned (target : Word) (h : ¬ StackAligned s) :
      Answers s (.call target) (.fault (.unaligned (s.consume 3#16)))
  | ld (d : Reg) (m : Mem) (v : Word) : Answers s (.ld d m) (.next ((resolveOperand m s).2.set d v))
  | ldMisaligned (d : Reg) {m : Mem} (hsz : m.size = .word)
      (hea : (resolveOperand m s).1.toNat % 2 = 1) :
      Answers s (.ld d m) (.fault (.unaligned (resolveOperand m s).2))
  | st (d : Reg) (m : Mem) (mem : Memory) :
      Answers s (.st d m) (.next ((resolveOperand m s).2.setMem mem))
  | stMisaligned (d : Reg) {m : Mem} (hsz : m.size = .word)
      (hea : (resolveOperand m s).1.toNat % 2 = 1) :
      Answers s (.st d m) (.fault (.unaligned (resolveOperand m s).2))
  | lea (d : Reg) (m : Mem) (v : Word) : Answers s (.lea d m) (.next ((resolveOperand m s).2.set d v))
  | illegalM (r : Reg) : Answers s (.illegalM r) (.fault (.illegal (s.consume 1#16)))
  | illegalShift (d : Reg) (dir arith : Bool) (cnt : BitVec 5) :
      Answers s (.illegalShift d dir arith cnt) (.fault (.illegal (s.consume 2#16)))
  | alu {i : Instr} {d : Reg} (h : i.aluDest = some d) (v : Word) :
      Answers s i (.next ((s.consume (BitVec.ofNat 16 i.length)).setResult d v))

theorem answers_ld (d : Reg) (m : Mem) (s : State) : Answers s (.ld d m) (exec (.ld d m) s) := by
  cases hsz : m.size with
  | byte => rw [exec_ld_byte d s hsz]; exact .ld d m _
  | word =>
    rcases Nat.mod_two_eq_zero_or_one (resolveOperand m s).1.toNat with hea | hea
    · rw [exec_ld_word_of_even d hsz hea]; exact .ld d m _
    · rw [exec_ld_word_of_odd d hsz hea]; exact .ldMisaligned d hsz hea

theorem answers_st (d : Reg) (m : Mem) (s : State) : Answers s (.st d m) (exec (.st d m) s) := by
  cases hsz : m.size with
  | byte => rw [exec_st_byte d s hsz]; exact .st d m _
  | word =>
    rcases Nat.mod_two_eq_zero_or_one (resolveOperand m s).1.toNat with hea | hea
    · rw [exec_st_word_of_even d hsz hea]; exact .st d m _
    · rw [exec_st_word_of_odd d hsz hea]; exact .stMisaligned d hsz hea

/-- What `exec` answers is one of the answers listed for the instruction. -/
theorem answers_exec (i : Instr) (s : State) : Answers s i (exec i s) := by
  cases i with
  | ret =>
    by_cases h : StackAligned s
    · rw [exec_ret_of_aligned h]; exact .ret h
    · rw [exec_ret_of_misaligned h]; exact .retMisaligned h
  | jcc mask disp =>
    by_cases h : Flags.taken mask s.flags = true
    · rw [exec_jcc_of_taken disp h]; exact .jcc mask disp _
    · rw [exec_jcc_of_not_taken disp h]; exact .jcc mask disp _
  | jmp target => rw [exec_jmp]; exact .jmp target
  | call target =>
    by_cases h : StackAligned s
    · rw [exec_call_of_aligned target h]; exact .call target h
    · rw [exec_call_of_misaligned target h]; exact .callMisaligned target h
  | ld d m => exact answers_ld d m s
  | st d m => exact answers_st d m s
  | lea d m => exact .lea d m _
  | illegalM r => exact .illegalM r
  | illegalShift d dir arith cnt => exact .illegalShift d dir arith cnt
  | ldi d imm => exact .alu (i := .ldi d imm) rfl imm
  | shl d arith c => exact .alu (i := .shl d arith c) rfl _
  | shr d c => exact .alu (i := .shr d c) rfl _
  | sar d c => exact .alu (i := .sar d c) rfl _
  | not d => exact .alu (i := .not d) rfl _
  | neg d => exact .alu (i := .neg d) rfl _
  | mov d r => exact .alu (i := .mov d r) rfl _
  | add d r => exact .alu (i := .add d r) rfl _
  | and d r => exact .alu (i := .and d r) rfl _
  | xor d r => exact .alu (i := .xor d r) rfl _

/-! ### Outcomes -/

theorem OutcomeCode.code_ne_three (c : OutcomeCode) : c.code ≠ 3#2 := by
  cases c <;> decide

theorem exec_ne_refused (i : Instr) (s : State) (r : Refusal) : exec i s ≠ .refused r := by
  intro h
  have ha := answers_exec i s
  rw [h] at ha
  cases ha

theorem stepWith_ne_refused (irq : Option IrqNum) (s : State) (r : Refusal) :
    stepWith irq s ≠ .refused r := by
  cases hacc : s.accepts irq with
  | none => rw [stepWith_of_not_accepted hacc]; exact exec_ne_refused _ _ r
  | some k =>
    rw [stepWith_of_accepted hacc]
    intro h
    rcases s.spZeroRule.interruptEntry_cases k with ⟨-, hf⟩ | ⟨-, t, hn, -⟩
    · cases h.symm.trans hf
    · cases h.symm.trans hn

/-- An answer that is no refusal is an outcome with the state it leaves. -/
theorem outcomeOf_of_ne_refused {o : Host.Outcome State Fault Refusal} (h : ∀ r, o ≠ .refused r) :
    ∃ c t, outcomeOf o = some (c, t) := by
  match o with
  | .next t => exact ⟨.cont, t, rfl⟩
  | .fault (.illegal t) => exact ⟨.illegal, t, rfl⟩
  | .fault (.unaligned t) => exact ⟨.unaligned, t, rfl⟩
  | .refused r => exact absurd rfl (h r)

/-- Settles O5. Neither interrupt entry nor any instruction answers a refusal, and every other answer
has one of the three codes. -/
theorem everyStepHasOneOutcome : Obligations.EveryStepHasOneOutcome := by
  intro irq s
  obtain ⟨c, t, hout⟩ := outcomeOf_of_ne_refused (stepWith_ne_refused irq s)
  exact ⟨⟨c, t, hout, c.code_ne_three⟩, stepWith_ne_refused irq s⟩

/-! ### The causes of the faults -/

/-- Settles O13. The four UNALIGNED answers of an instruction are the four causes. -/
theorem unalignedHasTheseCauses : Obligations.UnalignedHasTheseCauses := by
  intro i s l
  refine ⟨fun h => ?causes, fun h => ?fault⟩
  case causes =>
    have ha := answers_exec i s
    rw [h] at ha
    cases ha with
    | retMisaligned hsp => exact .inl ⟨rfl, Nat.mod_two_ne_zero.mp hsp, rfl⟩
    | callMisaligned target hsp => exact .inr (.inl ⟨target, rfl, Nat.mod_two_ne_zero.mp hsp, rfl⟩)
    | ldMisaligned d hsz hea => exact .inr (.inr ⟨d, _, .inl rfl, hsz, hea, rfl⟩)
    | stMisaligned d hsz hea => exact .inr (.inr ⟨d, _, .inr rfl, hsz, hea, rfl⟩)
  case fault =>
    rcases h with ⟨rfl, hsp, rfl⟩ | ⟨target, rfl, hsp, rfl⟩ | ⟨d, m, rfl | rfl, hsz, hea, rfl⟩
    · exact exec_ret_of_misaligned (Nat.mod_two_ne_zero.mpr hsp)
    · exact exec_call_of_misaligned target (Nat.mod_two_ne_zero.mpr hsp)
    · exact exec_ld_word_of_odd d hsz hea
    · exact exec_st_word_of_odd d hsz hea

/-- An instruction answers ILLEGAL exactly where it is one of the illegal rows, from any state. -/
theorem exec_illegal_iff (i : Instr) (s : State) :
    (∃ l, exec i s = .fault (.illegal l)) ↔ i.IsIllegal := by
  refine ⟨fun ⟨l, h⟩ => ?_, fun h => ?_⟩
  · have ha := answers_exec i s
    rw [h] at ha
    cases ha with
    | illegalM r => exact .inl ⟨r, rfl⟩
    | illegalShift d dir arith cnt => exact .inr ⟨d, dir, arith, cnt, rfl⟩
  · rcases h with ⟨r, rfl⟩ | ⟨d, dir, arith, cnt, rfl⟩
    · exact ⟨_, rfl⟩
    · exact ⟨_, rfl⟩

/-- The windows that decode to an illegal row, as numbers of their first two bytes (R73). -/
theorem decode_isIllegal_iff (w : Window) :
    (decode w).IsIllegal ↔ (0xC1 ≤ w.b0.toNat ∧ w.b0.toNat ≤ 0xC7) ∨
      (0x48 ≤ w.b0.toNat ∧ w.b0.toNat ≤ 0x78 ∧ w.b0.toNat % 8 = 0 ∧
        w.b1.toNat / 32 % 2 = 1 ∧ 7 < w.b1.toNat % 32) := by
  refine ⟨fun h => ?bytes, fun h => ?row⟩
  case bytes =>
    have hrow := decodesTo_decode w
    rcases h with ⟨r, hr⟩ | ⟨d, dir, arith, cnt, hi⟩
    · rw [hr] at hrow
      cases hrow with
      | illegalM hs hb =>
        obtain ⟨hop, hd, hr⟩ : w.b0.toNat / 64 = 3 ∧ w.b0.toNat / 8 % 8 = 0 ∧
            w.b0.toNat % 8 = r.bits.toNat := hb ▸ opcodeByte_numbers .op3 .ip r
        have hs0 := (Reg.toNat_bits_eq_zero_iff r).not.mpr hs
        omega
    · rw [hi] at hrow
      cases hrow with
      | illegalShift hd hb hc =>
        obtain ⟨hrc, hcnt⟩ := (decodeCount_eq_none_iff _).mp hc
        obtain ⟨hop, hr, hs⟩ : w.b0.toNat / 64 = 1 ∧ w.b0.toNat / 8 % 8 = d.bits.toNat ∧
            w.b0.toNat % 8 = 0 := hb ▸ opcodeByte_numbers .op1 d .ip
        have hd0 := (Reg.toNat_bits_eq_zero_iff d).not.mpr hd
        omega
  case row =>
    rcases h with ⟨hlo, hhi⟩ | ⟨hlo, hhi, hs, hrc, hcnt⟩
    · exact .inl ⟨_, decode_eq_illegalM hlo hhi⟩
    · have hnone := (decodeCount_eq_none_iff w.b1).mpr ⟨hrc, hcnt⟩
      exact .inr ⟨_, _, _, _, (decode_eq_decodeShift (by omega) (by omega) hs).trans
        (decodeShift_of_decodeCount_none _ hnone)⟩

/-- Settles O12. The step presented none executes the decoded instruction, and ILLEGAL is its row's
only cause. -/
theorem stepIsIllegalExactlyOnTwoEncodings : Obligations.StepIsIllegalExactlyOnTwoEncodings := by
  intro s
  rw [stepWith_none, exec_illegal_iff, decode_isIllegal_iff]
  rfl

/-! ### What a fault leaves -/

theorem sameRegs_spZeroRule (s : State) : SameRegsBut [.sp] s s.spZeroRule := by
  intro r hr
  rw [State.get_spZeroRule, if_neg fun h => List.mem_singleton.not.mp hr h.1]

theorem sameRegs_consume (s : State) (k : Word) : SameRegsBut [.ip] s (s.consume k) :=
  sameRegsBut_set s .ip _

theorem sameRegsBut_mono {as bs : List Reg} {s t : State} (h : SameRegsBut as s t) (hab : as ⊆ bs) :
    SameRegsBut bs s t :=
  fun r hr => h r fun hra => hr (hab hra)

/-- An instruction that faults has written registers only: IP, and the index register of a misaligned
load or store. -/
theorem exec_fault_frame {i : Instr} {s : State} {f : Fault} (h : exec i s = .fault f) :
    f.left.mem = s.mem ∧ f.left.flags = s.flags ∧ ∃ n, SameRegsBut [n, .ip] s f.left ∧
      (n ≠ .ip → ∃ d m, m.n = n ∧ (i = .ld d m ∨ i = .st d m)) := by
  have ha := answers_exec i s
  rw [h] at ha
  have hip : ∀ k, SameRegsBut [.ip, .ip] s (s.consume k) := fun k =>
    sameRegsBut_mono (sameRegs_consume s k) (by simp)
  cases ha with
  | retMisaligned | callMisaligned | illegalM | illegalShift =>
    exact ⟨rfl, rfl, .ip, hip _, fun hn => absurd rfl hn⟩
  | ldMisaligned d | stMisaligned d =>
    exact ⟨mem_resolveOperand _ s, flags_resolveOperand _ s, _, sameRegs_resolveOperand _ s,
      fun _ => ⟨d, _, rfl, by simp⟩⟩

/-- Settles O14. Before the fault the SP-zero rule has written SP, and the instruction IP and an index
register; a refused interrupt entry writes nothing. -/
theorem faultLeavesMemoryAndFlags : Obligations.FaultLeavesMemoryAndFlags := by
  intro irq s f h
  have hsp := sameRegs_spZeroRule s
  cases hacc : s.accepts irq with
  | none =>
    rw [stepWith_of_not_accepted hacc] at h
    obtain ⟨hmem, hflags, n, hregs, hn⟩ := exec_fault_frame h
    refine ⟨fun a => by rw [hmem, State.mem_spZeroRule], hflags.trans s.flags_spZeroRule, n,
      sameRegsBut_mono (sameRegsBut_append hsp hregs) (by simp), fun hip _ => hn hip⟩
  | some k =>
    rw [stepWith_of_accepted hacc] at h
    rcases s.spZeroRule.interruptEntry_cases k with ⟨-, hf⟩ | ⟨-, t, hn, -⟩
    · cases h.symm.trans hf
      exact ⟨fun a => by rw [Fault.left, State.mem_spZeroRule], s.flags_spZeroRule, .ip,
        sameRegsBut_mono hsp (by simp), fun hip => absurd rfl hip⟩
    · cases h.symm.trans hn

/-! ### What a completing instruction leaves -/

/-- Settles O43. F is written by RET, which keeps it where IE is set, and by the result flags of the
ALU. -/
theorem upperFlagsChangeOnlyThroughReturn : Obligations.UpperFlagsChangeOnlyThroughReturn := by
  intro i s t h hi
  have ha := answers_exec i s
  rw [h] at ha
  cases ha with
  | ret =>
    have hie : Flags.ie (s.consume 1#16).flags = true := hi.resolve_left (absurd rfl)
    rw [State.flags_returnFromStack, if_pos hie, State.flags_consume]
  | alu hd v => exact Flags.setNzp_upper _ v
  | ld | st | lea => simp
  | jcc | jmp | call => rfl

/-- Settles O44. Every other answer is made of register and flag writes. -/
theorem onlyStoreAndCallWriteMemory : Obligations.OnlyStoreAndCallWriteMemory := by
  intro i s t h hst hcall
  have ha := answers_exec i s
  rw [h] at ha
  have hmem : t.mem = s.mem := by
    cases ha with
    | st d m => exact absurd rfl (hst d m)
    | call target => exact absurd rfl (hcall target)
    | ret | ld | lea => simp
    | jcc | jmp | alu => rfl
  intro a
  rw [hmem]

/-! ### IP after an instruction that is no control flow (R96) -/

/-- The bytes of an addressing mode after `rm` are those the base fetches. -/
theorem streamAmount_eq (m : Mem) : 2#16 + streamAmount m = BitVec.ofNat 16 (1 + m.length) := by
  unfold streamAmount Mem.length
  cases m.base <;> rfl

theorem get_ip_resolveOperand (m : Mem) (s : State) :
    (resolveOperand m s).2.get .ip = s.get .ip + BitVec.ofNat 16 (1 + m.length) +
      if m.n = .ip then incAmount m - decAmount m else 0#16 := by
  rw [resolveOperand, get_resolve, State.get_consume, if_pos rfl, if_pos rfl, ← streamAmount_eq]
  by_cases hn : m.n = .ip
  · simp only [hn, if_true]; bv_omega
  · simp only [hn, Ne.symm hn, if_false]; bv_omega

theorem ipAdjust_of_aluDest {i : Instr} {d : Reg} (h : i.aluDest = some d) : ipAdjust i = 0#16 := by
  cases i <;> cases h <;> rfl

/-- Settles O45. A data register is not IP, so only the consumed bytes and the resolver move IP. -/
theorem ipAdvancesByLength : Obligations.IpAdvancesByLength := by
  intro i s t hwf h hret hjcc hjmp hcall
  have ha := answers_exec i s
  rw [h] at ha
  cases ha with
  | ret => exact absurd rfl hret
  | jcc mask disp => exact absurd rfl (hjcc mask disp)
  | jmp target => exact absurd rfl (hjmp target)
  | call target => exact absurd rfl (hcall target)
  | ld d m | lea d m =>
    have hd : d ≠ .ip := (Reg.nonzero_iff d).mp hwf
    rw [State.get_set, if_neg hd.symm, get_ip_resolveOperand]
    rfl
  | st d m => rw [State.get_setMem, get_ip_resolveOperand]; rfl
  | alu hd v =>
    rw [State.get_setResult, if_neg (Instr.aluDest_ne_ip hwf hd).symm, State.get_consume, if_pos rfl,
      ipAdjust_of_aluDest hd, BitVec.add_zero]

end Sys2Proof.Machine
end

section
/-! The ALU: the result flags, the frame that all its instructions share, and each result as a number
or bit by bit (R140 to R152). -/

namespace Sys2Proof.Machine

open Sys2Proof.Safety

/-! ### The result flags -/

/-- The result flags are a function of the sign of the signed value (R140). -/
theorem flagsFit_setNzp (f v : Word) : FlagsFit (Flags.setNzp f v) v := by
  have hbit : ∀ j < 3, (Flags.setNzp f v).getLsbD j = (nzpOf v).getLsbD j := fun j hj => by
    rw [Flags.getLsbD_setNzp, if_pos hj]
  unfold FlagsFit Flags.zero Flags.negative Flags.positive
  rw [hbit 0 (by decide), hbit 1 (by decide), hbit 2 (by decide), nzpOf]
  by_cases hz : v = 0#16
  · subst hz; decide
  · have hne : v.toInt ≠ 0 := fun h => hz (BitVec.toInt_inj.mp h)
    cases hmsb : v.msb with
    | true =>
      have hneg := BitVec.toInt_neg_of_msb_true hmsb
      simp [hz, hne, hneg, hneg.le]
    | false =>
      have hnonneg := BitVec.toInt_nonneg_of_msb_false hmsb
      have hpos : 0 < v.toInt := lt_of_le_of_ne hnonneg hne.symm
      simp [hz, hne, hpos, hnonneg]

/-- F[15:4] after `set_nzp`. -/
theorem Flags.setNzp_shift_four (f v : Word) : Flags.setNzp f v >>> 4 = f >>> 4 := by
  have h : ∀ x : Word, x >>> 4 = x >>> 3 >>> 1 := fun x => BitVec.shiftRight_add x 3 1
  rw [h, Flags.setNzp_upper, ← h]

/-- Settles O25. Bits 2:0 are those of the result's sign, and every other bit is kept. -/
theorem setNzpSetsExactlyOneFlag : Obligations.SetNzpSetsExactlyOneFlag :=
  fun f v => ⟨flagsFit_setNzp f v, Flags.ie_setNzp f v, Flags.setNzp_shift_four f v⟩

/-! ### The frame of an ALU instruction -/

/-- Bytes consumed and a result written are all that an ALU instruction does. -/
theorem aluResult_setResult {d : Reg} (hd : d ≠ .ip) (s : State) (v len : Word) :
    AluResult (.next ((s.consume len).setResult d v)) s d v len := by
  refine ⟨_, rfl, ?result, flagsFit_setNzp _ v, Flags.setNzp_upper _ v, ?ip, fun r hr => ?others,
    fun _ => rfl, rfl⟩
  case result => rw [State.get_setResult, if_pos rfl]
  case ip => rw [State.get_setResult, if_neg hd.symm, State.get_consume, if_pos rfl]
  case others =>
    obtain ⟨hrd, hrip⟩ : r ≠ d ∧ r ≠ .ip := by simpa using hr
    rw [State.get_setResult, if_neg hrd, State.get_consume, if_neg hrip]

/-- Settles O26. The result is the immediate. -/
theorem loadImmediateResult : Obligations.LoadImmediateResult :=
  fun _ imm s hd => aluResult_setResult hd s imm 3#16

/-- Settles O27. The result is the source register, which is not IP. -/
theorem moveResult : Obligations.MoveResult :=
  fun _ r s hd _ => aluResult_setResult hd s (s.get r) 1#16

/-- Settles O28. A sum of words is the sum of their values modulo 65536. -/
theorem addResult : Obligations.AddResult :=
  fun d r s hd _ => ⟨s.get d + s.get r, BitVec.toNat_add _ _, aluResult_setResult hd s _ 1#16⟩

/-- Settles O29. Both results are bitwise by definition of the word operations. -/
theorem bitwiseResults : Obligations.BitwiseResults := by
  intro d r s hd _
  refine ⟨⟨s.get d &&& s.get r, fun j => BitVec.getLsbD_and, aluResult_setResult hd s _ 1#16⟩,
    ⟨s.get d ^^^ s.get r, fun j => BitVec.getLsbD_xor, aluResult_setResult hd s _ 1#16⟩⟩

theorem toNat_complement (v : Word) : (v ^^^ 0xFFFF#16).toNat = 65535 - v.toNat := by
  have h : v ^^^ 0xFFFF#16 = ~~~v := BitVec.xor_allOnes
  rw [h, BitVec.toNat_not]

/-- Settles O30. Exclusive or with all ones is the complement. -/
theorem complementAndNegateResults : Obligations.ComplementAndNegateResults := by
  intro d s hd
  refine ⟨⟨s.get d ^^^ 0xFFFF#16, toNat_complement _, aluResult_setResult hd s _ 1#16⟩,
    ⟨0#16 - s.get d, ?_, aluResult_setResult hd s _ 1#16⟩⟩
  bv_omega

/-! ### Shifts -/

/-- The amount read past both bytes of a shift is the spec's, whether or not the count register is IP
(R142). -/
theorem shiftAmount_consume_two (c : Count) (s : State) :
    shiftAmount c (s.consume 2#16) = amountOf c s := by
  cases c with
  | imm k => rfl
  | reg r => cases r <;> simp [shiftAmount, amountOf]

/-- A shift of a register that is not IP is an ALU instruction of two bytes. -/
theorem aluResult_shiftBy {d : Reg} (hd : d ≠ .ip) (f : Word → Nat → Word) (c : Count) (s : State) :
    AluResult (.next (shiftBy f d c s)) s d (f (s.get d) (amountOf c s)) 2#16 := by
  have heq : shiftBy f d c s =
      (s.consume 2#16).setResult d (f (s.get d) (amountOf c s)) := by
    rw [shiftBy, shiftAmount_consume_two, State.get_consume, if_neg hd]
  rw [heq]
  exact aluResult_setResult hd s _ 2#16

theorem toNat_shiftLeft (v : Word) (k : Nat) :
    (shiftLeft v k).toNat = v.toNat * 2 ^ k % 65536 := by
  rw [shiftLeft, BitVec.toNat_shiftLeft, Nat.shiftLeft_eq]

theorem toNat_shiftRight (v : Word) (k : Nat) : (shiftRight v k).toNat = v.toNat / 2 ^ k := by
  rw [shiftRight, BitVec.toNat_ushiftRight, Nat.shiftRight_eq_div_pow]

theorem toInt_shiftArith (v : Word) (k : Nat) :
    (shiftArith v k).toInt = Int.fdiv v.toInt (2 ^ k) := by
  rw [shiftArith, BitVec.toInt_sshiftRight, Int.shiftRight_eq_div_pow,
    Int.fdiv_eq_ediv_of_nonneg _ (by positivity)]
  norm_cast

/-- Settles O31. A left shift multiplies by a power of two, modulo 65536. -/
theorem shiftLeftResult : Obligations.ShiftLeftResult :=
  fun _ _ c s hd => ⟨_, toNat_shiftLeft _ _, aluResult_shiftBy hd shiftLeft c s⟩

/-- Settles O32. A right shift divides by a power of two. -/
theorem shiftRightResult : Obligations.ShiftRightResult :=
  fun _ c s hd => ⟨_, toNat_shiftRight _ _, aluResult_shiftBy hd shiftRight c s⟩

/-- Settles O33. An arithmetic shift divides the signed value and rounds down. -/
theorem arithmeticShiftResult : Obligations.ArithmeticShiftResult :=
  fun _ c s hd => ⟨_, toInt_shiftArith _ _, aluResult_shiftBy hd shiftArith c s⟩

end Sys2Proof.Machine
end

section
/-! The stack: CALL and RET, interrupt entry and the return from it, and the run of zeroed memory
(R170, R174, R209 to R213, R233). -/

namespace Sys2Proof.Machine

open Sys2Proof.Safety

/-! ### Addresses around the stack pointer -/

theorem even_sub_two {a : Word} (h : a.toNat % 2 = 0) : (a - 2#16).toNat % 2 = 0 := by
  bv_omega

theorem even_sub_four {a : Word} (h : a.toNat % 2 = 0) : (a - 4#16).toNat % 2 = 0 := by
  bv_omega

/-! ### CALL and RET -/

/-- Settles O36. The pushed word lies at the new SP and at the address after it. -/
theorem callResult : Obligations.CallResult := by
  intro target s
  refine ⟨fun h => ?aligned, fun h => exec_call_of_misaligned target h⟩
  have hsp : (s.consume 3#16).get .sp = s.get .sp := by simp
  have hnext : s.get .sp - 2#16 + 1#16 = s.get .sp - 1#16 := by bv_omega
  refine ⟨_, exec_call_of_aligned target h, ?ip, ?sp, fun r hr => ?regs, ?pushed, ?memory, rfl, rfl⟩
  case ip => rw [State.get_set, if_pos rfl]
  case sp => simp
  case regs =>
    obtain ⟨hip, hrsp⟩ : r ≠ .ip ∧ r ≠ .sp := by simpa using hr
    simp [hip, hrsp]
  case pushed =>
    rw [State.mem_set, State.mem_push, hsp, Memory.readWord_writeWord_same]
  case memory =>
    rw [← hnext]
    refine sameMemoryBut_writeWord (v := s.get .ip + 3#16) ?_
    rw [State.mem_set, State.mem_push, hsp, State.mem_consume]

/-- Settles O37. RET is the return from the stack after its one byte, which moves IP only. -/
theorem returnResult : Obligations.ReturnResult := by
  intro s
  refine ⟨fun h => ?aligned, fun h => exec_ret_of_misaligned h⟩
  refine ⟨_, exec_ret_of_aligned h, ?ip, fun r hr => ?regs, fun _ => ?memory, ?irqs,
    fun hie => ?plain, fun hie => ?fromInterrupt⟩
  case ip => simp [State.get_returnFromStack]
  case regs =>
    obtain ⟨hip, hsp⟩ : r ≠ .ip ∧ r ≠ .sp := by simpa using hr
    simp [State.get_returnFromStack, hip, hsp]
  case memory => simp
  case irqs => simp
  case plain =>
    have hie' : Flags.ie s.flags = true := hie
    simp [State.get_returnFromStack, State.flags_returnFromStack, hie']
  case fromInterrupt =>
    have hie' : Flags.ie s.flags = false := hie
    simp [State.get_returnFromStack, State.flags_returnFromStack, hie']

/-- A CALL that completes had SP even. -/
theorem stackAligned_of_exec_call {target : Word} {s u : State} (h : exec (.call target) s = .next u) :
    StackAligned s := by
  by_contra hsp
  cases h.symm.trans (exec_call_of_misaligned target hsp)

/-- Settles O38. RET pops from where CALL pushed, so it goes to the address after the call with SP back
where it was, or one word higher. -/
theorem callThenReturnRoundTrip : Obligations.CallThenReturnRoundTrip := by
  intro target s u c hcall hsp hret
  have haligned := stackAligned_of_exec_call hcall
  obtain ⟨u', hu', -, husp, -, hpushed, -⟩ := (callResult target s).1 haligned
  cases hcall.symm.trans hu'
  rw [husp] at hsp hret
  have hc : StackAligned c := by rw [StackAligned, hsp]; exact even_sub_two haligned
  obtain ⟨t, ht, hip, hregs, hmem, -, hplain, hrti⟩ := (returnResult c).1 hc
  have htwo : c.get .sp + 2#16 = s.get .sp := by rw [hsp]; exact BitVec.sub_add_cancel _ _
  have hfour : c.get .sp + 4#16 = s.get .sp + 2#16 := by rw [hsp]; bv_omega
  refine ⟨t, ht, ?_, hregs, hmem, fun hie => ?_, fun hie => ?_⟩
  · rw [hip, hsp, hret, hpushed]
  · obtain ⟨htsp, hflags⟩ := hplain hie
    exact ⟨htsp.trans htwo, hflags⟩
  · obtain ⟨htsp, hflags⟩ := hrti hie
    exact ⟨htsp.trans hfour, htwo ▸ hflags⟩

/-! ### Interrupt entry -/

/-- With SP odd interrupt entry changes nothing. -/
theorem interruptEntry_of_misaligned (k : IrqNum) {s : State} (h : ¬ StackAligned s) :
    s.interruptEntry k = .fault (.unaligned s) := by
  rcases s.interruptEntry_cases k with ⟨-, hf⟩ | ⟨hodd, -⟩
  · exact hf
  · cases hodd.symm.trans (odd_sp_eq_true h)

/-- Interrupt entry with SP even: the frame on the stack, IE cleared, IP at the vector, and nothing
else changed (R210, R211). -/
theorem interruptEntry_of_aligned (k : IrqNum) {s : State} (h : StackAligned s) :
    ∃ t, s.interruptEntry k = .next t ∧ t.get .sp = s.get .sp - 4#16 ∧
      t.get .ip = Memory.readWord t.mem (vectorAddr k) ∧ SameRegsBut [.ip, .sp] s t ∧
      t.flags = Flags.clearIe s.flags ∧
      Memory.readWord t.mem (s.get .sp - 2#16) = s.flags ∧
      Memory.readWord t.mem (s.get .sp - 4#16) = s.get .ip ∧
      SameMemoryBut [s.get .sp - 4#16, s.get .sp - 3#16, s.get .sp - 2#16, s.get .sp - 1#16] s t ∧
      t.irqs = s.irqs := by
  rcases s.interruptEntry_cases k with ⟨hodd, -⟩ | ⟨-, t, ht, hmem, hflags, hirqs, hget⟩
  · cases hodd.symm.trans (odd_sp_eq_false h)
  have hfour : s.get .sp - 2#16 - 2#16 = s.get .sp - 4#16 := by bv_omega
  rw [hfour] at hmem hget
  refine ⟨t, ht, (hget .sp).trans rfl, (hget .ip).trans rfl, fun r hr => ?regs, hflags, ?flagsWord,
    ?ipWord, fun a ha => ?memory, hirqs⟩
  case regs =>
    obtain ⟨hip, hsp⟩ : r ≠ .ip ∧ r ≠ .sp := by simpa using hr
    rw [hget, if_neg hip, if_neg hsp]
  case flagsWord =>
    rw [hmem, Memory.readWord_writeWord_of_disjoint _ _ _ _ (by bv_omega) (by bv_omega)
      (by bv_omega), Memory.readWord_writeWord_same]
  case ipWord => rw [hmem, Memory.readWord_writeWord_same]
  case memory =>
    obtain ⟨h4, h3, h2, h1⟩ : a ≠ s.get .sp - 4#16 ∧ a ≠ s.get .sp - 3#16 ∧ a ≠ s.get .sp - 2#16 ∧
        a ≠ s.get .sp - 1#16 := by simpa using ha
    have hs3 : a ≠ s.get .sp - 4#16 + 1#16 := by bv_omega
    have hs1 : a ≠ s.get .sp - 2#16 + 1#16 := by bv_omega
    rw [hmem, Memory.readByte_writeWord, if_neg hs3, if_neg h4, Memory.readByte_writeWord, if_neg hs1,
      if_neg h2]

/-- The SP-zero rule keeps an even SP even (R22). -/
theorem stackAligned_spZeroRule {s : State} (h : StackAligned s) : StackAligned s.spZeroRule := by
  unfold StackAligned at *
  rw [State.get_spZeroRule]
  split
  · decide
  · exact h

theorem vectorAddr_eq_ofNat (k : IrqNum) : vectorAddr k = BitVec.ofNat 16 (0xFFF0 + 2 * k.val) := by
  rw [vectorAddr, BitVec.ofNat_add]

/-- Settles O39. With IE set the presented number is taken, and the step is its entry from the state
after the SP-zero rule. -/
theorem interruptEntryResult : Obligations.InterruptEntryResult := by
  intro k s hie haligned sp
  have hsp : s.spZeroRule.get .sp = sp := by
    rw [State.get_spZeroRule]; simp [sp]
  obtain ⟨t, ht, htsp, hip, hregs, hflags, hflagsWord, hipWord, hmem, hirqs⟩ :=
    interruptEntry_of_aligned k (stackAligned_spZeroRule haligned)
  rw [hsp] at htsp hflagsWord hipWord hmem
  rw [State.flags_spZeroRule] at hflags hflagsWord
  rw [vectorAddr_eq_ofNat] at hip
  refine ⟨t, ?step, htsp, hip, ?regs, fun j => ?flags, hflagsWord, ?ipWord, fun a ha => ?memory,
    hirqs.trans s.irqs_spZeroRule⟩
  case step => rw [stepWith_of_accepted (State.accepts_of_ie_set _ hie), ht]
  case regs => exact sameRegsBut_mono (sameRegsBut_append (sameRegs_spZeroRule s) hregs) (by simp)
  case flags => rw [hflags, Flags.getLsbD_clearIe]
  case ipWord => rw [hipWord, State.get_spZeroRule]; rfl
  case memory => rw [hmem a ha, State.mem_spZeroRule]

/-- Settles O40. An odd SP is not 0, so the SP-zero rule does nothing. -/
theorem interruptEntryWithOddStack : Obligations.InterruptEntryWithOddStack := by
  intro k s hie hodd
  have hne : s.get .sp ≠ 0#16 := fun h0 => hodd (by rw [StackAligned, h0]; rfl)
  rw [stepWith_of_accepted (State.accepts_of_ie_set _ hie), State.spZeroRule_of_ne hne,
    interruptEntry_of_misaligned k hodd]

/-- An interrupt entry that completes had SP even. -/
theorem stackAligned_of_interruptEntry {k : IrqNum} {s e : State} (h : s.interruptEntry k = .next e) :
    StackAligned s := by
  by_contra hsp
  cases h.symm.trans (interruptEntry_of_misaligned k hsp)

theorem readWord_eq_of_bytes {m n : Memory} {a b : Word} (hab : a + 1#16 = b)
    (ha : Memory.readByte m a = Memory.readByte n a) (hb : Memory.readByte m b = Memory.readByte n b) :
    Memory.readWord m a = Memory.readWord n a := by
  rw [Memory.readWord, Memory.readWord, hab, ha, hb]

/-- Settles O41. The handler has kept the four bytes of the frame, so RET with IE clear pops the IP and
the F that the entry pushed. -/
theorem interruptThenReturnRestores : Obligations.InterruptThenReturnRestores := by
  intro k s e h hentry hie hsp hframe
  have haligned := stackAligned_of_interruptEntry hentry
  obtain ⟨e', he', hesp, -, -, -, hflagsWord, hipWord, -⟩ := interruptEntry_of_aligned k haligned
  cases hentry.symm.trans he'
  rw [hesp] at hsp
  have hh : StackAligned h := by rw [StackAligned, hsp]; exact even_sub_four haligned
  have hlow : Memory.readWord h.mem (s.get .sp - 4#16) = s.get .ip := by
    rw [← hipWord]
    exact readWord_eq_of_bytes (b := s.get .sp - 3#16) (by bv_omega) (hframe _ (by simp))
      (hframe _ (by simp))
  have hhigh : Memory.readWord h.mem (s.get .sp - 2#16) = s.flags := by
    rw [← hflagsWord]
    exact readWord_eq_of_bytes (b := s.get .sp - 1#16) (by bv_omega) (hframe _ (by simp))
      (hframe _ (by simp))
  obtain ⟨t, ht, hip, hregs, hmem, -, -, hrti⟩ := (returnResult h).1 hh
  obtain ⟨htsp, hflags⟩ := hrti hie
  have htwo : h.get .sp + 2#16 = s.get .sp - 2#16 := by rw [hsp]; bv_omega
  refine ⟨t, ht, ?_, ?_, ?_, hregs, hmem⟩
  · rw [hip, hsp, hlow]
  · rw [hflags, htwo, hhigh]
  · rw [htsp, hsp]; exact BitVec.sub_add_cancel _ _

/-- Settles O42. The entry has cleared IE, and with IE clear a presented number makes no difference. -/
theorem noInterruptAfterEntry : Obligations.NoInterruptAfterEntry := by
  intro k j s t hentry
  obtain ⟨t', ht', -, -, -, hflags, -⟩ :=
    interruptEntry_of_aligned k (stackAligned_of_interruptEntry hentry)
  cases hentry.symm.trans ht'
  have hie : Flags.ie t.flags = false := by rw [hflags, Flags.ie_clearIe]
  exact (presentedNumberIgnoredWhenDisabled t).1 j hie

/-! ### Zeroed memory (R233) -/

/-- The stack pointer of a machine with zeroed memory after `n` steps. -/
def zeroedSp (n : Nat) : Word := BitVec.ofNat 16 (0xFFF0 + 4 * ((n + 3) % 4 + 1))

/-- The state of a machine with zeroed memory after `n` steps. -/
def zeroedState (n : Nat) : State := State.reset.set .sp (zeroedSp n)

/-- Going round: 0 is replaced by 0xFFF0, and RET then adds 4. -/
theorem zeroedSp_succ (n : Nat) :
    zeroedSp (n + 1) = (if zeroedSp n = 0#16 then 0xFFF0#16 else zeroedSp n) + 4#16 := by
  have hmod : n % 4 = 0 ∨ n % 4 = 1 ∨ n % 4 = 2 ∨ n % 4 = 3 := by omega
  unfold zeroedSp
  rcases hmod with h | h | h | h <;> simp [Nat.add_mod, h]

theorem get_zeroedState (n : Nat) (r : Reg) :
    (zeroedState n).get r = if r = .sp then zeroedSp n else 0#16 := by
  rw [zeroedState, State.get_set, State.get_reset]

theorem stackAligned_zeroedState (n : Nat) : StackAligned (zeroedState n) := by
  rw [StackAligned, get_zeroedState, if_pos rfl, zeroedSp, BitVec.toNat_ofNat]
  omega

/-- A word read from zeroed memory is 0. -/
theorem Memory.readWord_nil (a : Word) : Memory.readWord [] a = 0#16 := by
  rw [Memory.readWord, Memory.readByte_nil, Memory.readByte_nil]; rfl

theorem decode_window_zeroedState (n : Nat) : decode (zeroedState n).window = .ret :=
  (DecodesTo.ret rfl).decode_eq

/-- RET on zeroed memory, in its return-from-interrupt form, pops IP = 0 and F = 0. -/
theorem returnFromStack_zeroedState (n : Nat) :
    ((zeroedState n).spZeroRule.consume 1#16).returnFromStack = zeroedState (n + 1) := by
  have hmem : (zeroedState n).mem = [] := rfl
  have hflags : (zeroedState n).flags = 0#16 := rfl
  have hie : Flags.ie 0#16 = false := rfl
  refine State.eq_of_parts_eq (fun r => ?regs) ?flags ?memory ?input
  case regs =>
    rw [get_zeroedState, zeroedSp_succ]
    by_cases hsp : r = .sp
    · simp [State.get_returnFromStack, State.get_spZeroRule, get_zeroedState, hflags, hie, hsp]
    · simp [State.get_returnFromStack, State.get_spZeroRule, get_zeroedState, hmem, hsp, Memory.readWord_nil]
  case flags =>
    rw [State.flags_returnFromStack, State.flags_consume, State.flags_spZeroRule, hflags, hie,
      State.mem_consume, State.mem_spZeroRule, hmem, Memory.readWord_nil]
    rfl
  case memory => rw [State.mem_returnFromStack, State.mem_consume, State.mem_spZeroRule]; rfl
  case input => rw [State.irqs_returnFromStack, State.irqs_consume, State.irqs_spZeroRule]; rfl

/-- On zeroed memory every step is a RET. -/
theorem step_zeroedState (n : Nat) : step (zeroedState n) = .next (zeroedState (n + 1)) := by
  calc step (zeroedState n)
      = stepWith none (zeroedState n) := rfl
    _ = exec .ret (zeroedState n).spZeroRule := by
      rw [stepWith_none, decode_window_zeroedState]
    _ = .next (zeroedState (n + 1)) := by
      rw [exec_ret_of_aligned (stackAligned_spZeroRule (stackAligned_zeroedState n)),
        returnFromStack_zeroedState]

theorem runsTo_zeroedState (n : Nat) : RunsTo n State.reset (zeroedState n) := by
  induction n with
  | zero => rfl
  | succ n ih =>
    have hstep : core.step (zeroedState n) = .next (zeroedState (n + 1)) := step_zeroedState n
    rw [RunsTo, run_succ core n State.reset (zeroedState n) ih, hstep]

/-- Settles O10. The run is known state by state: only SP changes, and it goes round. -/
theorem zeroedMemoryNeverHalts : Obligations.ZeroedMemoryNeverHalts := by
  intro n
  refine ⟨zeroedState n, runsTo_zeroedState n, ?ip, rfl, fun _ => rfl, decode_window_zeroedState n,
    ?sp⟩
  case ip => rw [get_zeroedState]; rfl
  case sp => rw [get_zeroedState, if_pos rfl, zeroedSp]

end Sys2Proof.Machine
end
